-- ==== Sys2Proof/Word.lean ====
section
/-! DEFINITION. The word types of the hardware. All quantities are unsigned (R6). -/

namespace Sys2Proof

/-- A byte of memory, a general register or a timer (R5: 8 bits). -/
abbrev Byte := BitVec 8

/-- A 16-bit value: `pc`, `I`, an entry of the call stack (R5). -/
abbrev Word := BitVec 16

/-- A 16-bit instruction word (R45). Bit 0 is its least significant bit (R6). -/
abbrev Opcode := BitVec 16

/-- A 12-bit absolute address: the operand `nnn` (R47) and the address input of LOAD (R92). -/
abbrev Addr12 := BitVec 12

/-- A register number: a 4-bit field, so every value names a register that exists (R11). -/
abbrev RegNum := BitVec 4

end Sys2Proof
end

