-- ==== Sys2Proof/Config.lean ====
section
/-! DEFINITION. The parameters of the hardware (R5) and its one open parameter, `FONT` (R122). -/

namespace Sys2Proof.Config

/-- `MEM_SIZE`: addresses 0x000 to 0xFFF (R5, R30). -/
def memSize : Nat := 4096

/-- `PROGRAM_BASE`: the lowest address LOAD may write, and the reset value of `pc` (R5, R32). -/
def programBase : Nat := 0x200

/-- `FONT`: the 80 bytes of the font table. OPEN in the spec (R5, R122, D14): its place, size and shape are given, its
bytes are not. A constant with no body, so no proof can see its value and every statement holds for every `FONT`
(log 1; safe). -/
opaque font : Vector Byte 80

/-- PRESUMED (log 11; the spec marks it `[from general knowledge, not in source]`, R122, K1). The table every
conventional CHIP-8 implementation uses. NO definition of the model uses it: `font` stays open. -/
def conventionalFont : Vector Byte 80 :=
  #v[0xF0, 0x90, 0x90, 0x90, 0xF0,  0x20, 0x60, 0x20, 0x20, 0x70,  0xF0, 0x10, 0xF0, 0x80, 0xF0,  0xF0, 0x10, 0xF0, 0x10, 0xF0,
     0x90, 0x90, 0xF0, 0x10, 0x10,  0xF0, 0x80, 0xF0, 0x10, 0xF0,  0xF0, 0x80, 0xF0, 0x90, 0xF0,  0xF0, 0x10, 0x20, 0x40, 0x40,
     0xF0, 0x90, 0xF0, 0x90, 0xF0,  0xF0, 0x90, 0xF0, 0x10, 0xF0,  0xF0, 0x90, 0xF0, 0x90, 0x90,  0xE0, 0x90, 0xE0, 0x90, 0xE0,
     0xF0, 0x80, 0x80, 0x80, 0xF0,  0xE0, 0x90, 0x90, 0x90, 0xE0,  0xF0, 0x80, 0xF0, 0x80, 0xF0,  0xF0, 0x80, 0xF0, 0x80, 0x80]

end Sys2Proof.Config
end

