-- ==== Sys2Proof/Syntax.lean ====
section
/-! DEFINITION. The 14 instructions: one constructor per row of the opcode map (R49). -/

namespace Sys2Proof

/-- The instructions. Operand widths are those of the opcode's fields (R46, R47), so an operand that no opcode can
hold cannot be written. -/
inductive Instr where
  /-- NOP, 0x0000 (R70). -/
  | nop
  /-- CLS, 0x00E0 (R71). -/
  | cls
  /-- RET, 0x00EE (R74). -/
  | ret
  /-- JMP(nnn), 0x1NNN (R75). -/
  | jmp (nnn : Addr12)
  /-- CALL(nnn), 0x2NNN (R76). -/
  | call (nnn : Addr12)
  /-- SKIP_EQ_IMM(x, nn), 0x3XNN (R78). -/
  | skipEqImm (x : RegNum) (nn : Byte)
  /-- SKIP_NEQ_IMM(x, nn), 0x4XNN (R79). -/
  | skipNeqImm (x : RegNum) (nn : Byte)
  /-- SKIP_EQ_REG(x, y), 0x5XY0 (R80). -/
  | skipEqReg (x y : RegNum)
  /-- LOAD_IMM(x, nn), 0x6XNN (R81). -/
  | loadImm (x : RegNum) (nn : Byte)
  /-- ADD_IMM(x, nn), 0x7XNN (R82). -/
  | addImm (x : RegNum) (nn : Byte)
  /-- COPY(x, y), 0x8XY0 (R84). -/
  | copy (x y : RegNum)
  /-- OR(x, y), 0x8XY1 (R85). -/
  | orReg (x y : RegNum)
  /-- AND(x, y), 0x8XY2 (R86). -/
  | andReg (x y : RegNum)
  /-- XOR(x, y), 0x8XY3 (R87). -/
  | xorReg (x y : RegNum)
deriving DecidableEq, Repr

end Sys2Proof
end

