-- ==== Sys2Proof/WellFormed.lean ====
section
/-! DEFINITION. What must be checked before a term is an instruction or a program: the operand count and ranges of an
assembly term (R55) and the length of a program (R92). `Instr` needs no check of its own: its operand types are the
opcode's field widths (R11, R47, R51). -/

namespace Sys2Proof

/-- The mnemonics of the opcode map (R49). -/
inductive Mnemonic where
  | NOP | CLS | RET | JMP | CALL | SKIP_EQ_IMM | SKIP_NEQ_IMM | SKIP_EQ_REG | LOAD_IMM | ADD_IMM | COPY | OR | AND | XOR
deriving DecidableEq, Repr

/-- The four formats (R46). -/
inductive Format where
  | Z | A | XN | XY
deriving DecidableEq, Repr

/-- The "format" column of the opcode map (R49). -/
def Mnemonic.format : Mnemonic → Format
  | .NOP | .CLS | .RET => .Z
  | .JMP | .CALL => .A
  | .SKIP_EQ_IMM | .SKIP_NEQ_IMM | .LOAD_IMM | .ADD_IMM => .XN
  | .SKIP_EQ_REG | .COPY | .OR | .AND | .XOR => .XY

/-- A term of the assembly syntax of R55: the mnemonic, then its operands as numbers, in the order of R49's "operands"
column (D13, log 24). -/
structure AsmTerm where
  mnemonic : Mnemonic
  operands : List Nat
deriving DecidableEq, Repr

/-- The term has the operands its format asks for, each within its field: `x` and `y` a register number 0 to 15, `nn`
8 bits, `nnn` 12 bits (R46, R47, R55). -/
def AsmTerm.wellFormed (t : AsmTerm) : Bool :=
  match t.mnemonic.format, t.operands with
  | .Z, [] => true
  | .A, [nnn] => decide (nnn < 4096)
  | .XN, [x, nn] => decide (x < 16) && decide (nn < 256)
  | .XY, [x, y] => decide (x < 16) && decide (y < 16)
  | _, _ => false

/-- A program fits the program area 0x200 to 0xFFF: it "must satisfy `n <= 3584`" (R92, R37). -/
def wellFormedProgram (bytes : List Byte) : Bool :=
  decide (bytes.length ≤ Config.memSize - Config.programBase)

end Sys2Proof
end

