-- ==== Sys2Proof/Decode.lean ====
section
/-! DEFINITION. Decoding (R47 to R53) and encoding (R49's bit strings) of instructions, their byte order in memory
(R33), and the assembly syntax (R55, R56). -/

namespace Sys2Proof

/-! ## Fields of an opcode (R6, R47) -/

/-- `digit1 = op[15:12]`, the most significant 4-bit field (R6). -/
def digit1 (op : Opcode) : BitVec 4 := op.extractLsb' 12 4

/-- `x = digit2 = op[11:8]` (R47). -/
def fieldX (op : Opcode) : RegNum := op.extractLsb' 8 4

/-- `y = digit3 = op[7:4]` (R47). -/
def fieldY (op : Opcode) : RegNum := op.extractLsb' 4 4

/-- `digit4 = op[3:0]` (R6). -/
def digit4 (op : Opcode) : BitVec 4 := op.extractLsb' 0 4

/-- `nn = op[7:0]` (R47). -/
def fieldNN (op : Opcode) : Byte := op.extractLsb' 0 8

/-- `nnn = op[11:0]` (R47). -/
def fieldNNN (op : Opcode) : Addr12 := op.extractLsb' 0 12

/-! ## The opcode map (R49) -/

/-- A row of the opcode map: `op` selects it exactly when `op & mask == pattern` (R49). -/
structure OpcodeRow where
  mnemonic : Mnemonic
  mask : Opcode
  pattern : Opcode
deriving DecidableEq, Repr

/-- The complete opcode map, row by row in the spec's order (R49). -/
def opcodeTable : List OpcodeRow :=
  [ ⟨.NOP,          0xFFFF#16, 0x0000#16⟩,
    ⟨.CLS,          0xFFFF#16, 0x00E0#16⟩,
    ⟨.RET,          0xFFFF#16, 0x00EE#16⟩,
    ⟨.JMP,          0xF000#16, 0x1000#16⟩,
    ⟨.CALL,         0xF000#16, 0x2000#16⟩,
    ⟨.SKIP_EQ_IMM,  0xF000#16, 0x3000#16⟩,
    ⟨.SKIP_NEQ_IMM, 0xF000#16, 0x4000#16⟩,
    ⟨.SKIP_EQ_REG,  0xF00F#16, 0x5000#16⟩,
    ⟨.LOAD_IMM,     0xF000#16, 0x6000#16⟩,
    ⟨.ADD_IMM,      0xF000#16, 0x7000#16⟩,
    ⟨.COPY,         0xF00F#16, 0x8000#16⟩,
    ⟨.OR,           0xF00F#16, 0x8001#16⟩,
    ⟨.AND,          0xF00F#16, 0x8002#16⟩,
    ⟨.XOR,          0xF00F#16, 0x8003#16⟩ ]

/-- The row's pattern matches the opcode (R48, R49). -/
def rowMatches (r : OpcodeRow) (op : Opcode) : Bool := op &&& r.mask == r.pattern

/-- The row the opcode selects, if any (R48); at most one matches (R50), so the order of search decides nothing. -/
def findRow (op : Opcode) : Option OpcodeRow := opcodeTable.find? fun r => rowMatches r op

/-- The instruction of a row with its operands taken from the opcode (R47, R49). -/
def assembleOperands (m : Mnemonic) (op : Opcode) : Instr :=
  match m with
  | .NOP => .nop
  | .CLS => .cls
  | .RET => .ret
  | .JMP => .jmp (fieldNNN op)
  | .CALL => .call (fieldNNN op)
  | .SKIP_EQ_IMM => .skipEqImm (fieldX op) (fieldNN op)
  | .SKIP_NEQ_IMM => .skipNeqImm (fieldX op) (fieldNN op)
  | .SKIP_EQ_REG => .skipEqReg (fieldX op) (fieldY op)
  | .LOAD_IMM => .loadImm (fieldX op) (fieldNN op)
  | .ADD_IMM => .addImm (fieldX op) (fieldNN op)
  | .COPY => .copy (fieldX op) (fieldY op)
  | .OR => .orReg (fieldX op) (fieldY op)
  | .AND => .andReg (fieldX op) (fieldY op)
  | .XOR => .xorReg (fieldX op) (fieldY op)

/-! ## Decoding -/

/-- Why bytes are not an instruction. -/
inductive DecodeError where
  /-- The opcode matches no row: an illegal encoding (R52). -/
  | unhandledInstruction (op : Opcode)
  /-- Fewer than two bytes: every instruction is exactly two (R45). -/
  | truncated
deriving DecidableEq, Repr

/-- Decode one opcode (R48, R52). It reads nothing but the opcode (R62). -/
def decode (op : Opcode) : Except DecodeError Instr :=
  match findRow op with
  | some r => .ok (assembleOperands r.mnemonic op)
  | none => .error (.unhandledInstruction op)

/-- The opcode of two bytes of memory, the byte at the lower address first: it is `op[15:8]` (R33). -/
def joinBytes (lower higher : Byte) : Opcode := lower ++ higher

/-- `op[15:8]`, the byte at the lower address (R33). -/
def lowerAddressByte (op : Opcode) : Byte := op.extractLsb' 8 8

/-- `op[7:0]`, the byte at the higher address (R33). -/
def higherAddressByte (op : Opcode) : Byte := op.extractLsb' 0 8

/-- Decode the first instruction of a list of bytes; answer it with the bytes that follow (R45, R33). -/
def decodeBytes : List Byte → Except DecodeError (Instr × List Byte)
  | lower :: higher :: rest =>
    match decode (joinBytes lower higher) with
    | .ok i => .ok (i, rest)
    | .error e => .error e
  | _ => .error .truncated

/-! ## Encoding: the bit strings of R49 in the formats of R46 -/

/-- Format A: digit1, `nnn` (R46). -/
def formatA (d : BitVec 4) (nnn : Addr12) : Opcode := d ++ nnn

/-- Format XN: digit1, `x`, `nn` (R46). -/
def formatXN (d : BitVec 4) (x : RegNum) (nn : Byte) : Opcode := d ++ x ++ nn

/-- Format XY: digit1, `x`, `y`, digit4 (R46). -/
def formatXY (d : BitVec 4) (x y : RegNum) (f : BitVec 4) : Opcode := d ++ x ++ y ++ f

/-- The opcode of an instruction, from the bit strings of R49. -/
def encode : Instr → Opcode
  | .nop => 0x0000#16
  | .cls => 0x00E0#16
  | .ret => 0x00EE#16
  | .jmp nnn => formatA 0x1#4 nnn
  | .call nnn => formatA 0x2#4 nnn
  | .skipEqImm x nn => formatXN 0x3#4 x nn
  | .skipNeqImm x nn => formatXN 0x4#4 x nn
  | .skipEqReg x y => formatXY 0x5#4 x y 0x0#4
  | .loadImm x nn => formatXN 0x6#4 x nn
  | .addImm x nn => formatXN 0x7#4 x nn
  | .copy x y => formatXY 0x8#4 x y 0x0#4
  | .orReg x y => formatXY 0x8#4 x y 0x1#4
  | .andReg x y => formatXY 0x8#4 x y 0x2#4
  | .xorReg x y => formatXY 0x8#4 x y 0x3#4

/-- The two bytes of an opcode as memory holds them (R33). -/
def opcodeBytes (op : Opcode) : List Byte := [lowerAddressByte op, higherAddressByte op]

/-- The two bytes of an instruction as memory holds them (R33, R45). -/
def encodeBytes (i : Instr) : List Byte := opcodeBytes (encode i)

/-! ## Assembly syntax (R55, R56; D13, log 24) -/

/-- The mnemonic of an instruction (R49). -/
def mnemonicOf : Instr → Mnemonic
  | .nop => .NOP
  | .cls => .CLS
  | .ret => .RET
  | .jmp _ => .JMP
  | .call _ => .CALL
  | .skipEqImm _ _ => .SKIP_EQ_IMM
  | .skipNeqImm _ _ => .SKIP_NEQ_IMM
  | .skipEqReg _ _ => .SKIP_EQ_REG
  | .loadImm _ _ => .LOAD_IMM
  | .addImm _ _ => .ADD_IMM
  | .copy _ _ => .COPY
  | .orReg _ _ => .OR
  | .andReg _ _ => .AND
  | .xorReg _ _ => .XOR

/-- An instruction written in the assembly syntax (R55). -/
def disassemble (i : Instr) : AsmTerm :=
  ⟨mnemonicOf i,
    match i with
    | .nop | .cls | .ret => []
    | .jmp nnn | .call nnn => [nnn.toNat]
    | .skipEqImm x nn | .skipNeqImm x nn | .loadImm x nn | .addImm x nn => [x.toNat, nn.toNat]
    | .skipEqReg x y | .copy x y | .orReg x y | .andReg x y | .xorReg x y => [x.toNat, y.toNat]⟩

/-- The instruction a term of the assembly syntax stands for; none where the term is ill-formed (R55). -/
def assemble (t : AsmTerm) : Option Instr :=
  if t.wellFormed then
    match t.mnemonic, t.operands with
    | .NOP, [] => some .nop
    | .CLS, [] => some .cls
    | .RET, [] => some .ret
    | .JMP, [nnn] => some (.jmp (BitVec.ofNat 12 nnn))
    | .CALL, [nnn] => some (.call (BitVec.ofNat 12 nnn))
    | .SKIP_EQ_IMM, [x, nn] => some (.skipEqImm (BitVec.ofNat 4 x) (BitVec.ofNat 8 nn))
    | .SKIP_NEQ_IMM, [x, nn] => some (.skipNeqImm (BitVec.ofNat 4 x) (BitVec.ofNat 8 nn))
    | .SKIP_EQ_REG, [x, y] => some (.skipEqReg (BitVec.ofNat 4 x) (BitVec.ofNat 4 y))
    | .LOAD_IMM, [x, nn] => some (.loadImm (BitVec.ofNat 4 x) (BitVec.ofNat 8 nn))
    | .ADD_IMM, [x, nn] => some (.addImm (BitVec.ofNat 4 x) (BitVec.ofNat 8 nn))
    | .COPY, [x, y] => some (.copy (BitVec.ofNat 4 x) (BitVec.ofNat 4 y))
    | .OR, [x, y] => some (.orReg (BitVec.ofNat 4 x) (BitVec.ofNat 4 y))
    | .AND, [x, y] => some (.andReg (BitVec.ofNat 4 x) (BitVec.ofNat 4 y))
    | .XOR, [x, y] => some (.xorReg (BitVec.ofNat 4 x) (BitVec.ofNat 4 y))
    | _, _ => none
  else none

/-- The raw word `WORD(0xhhhh)` of a listing: its two bytes, the more significant first (R56). -/
def listingWord (w : Opcode) : List Byte := opcodeBytes w

/-! ## The opcode table's numbering -/

/-- The instruction the decoder reads from an instruction whose bits are `w`, numbered as spec/opcode_table.json
numbers them (bit 0 the least significant bit of the one 16-bit word), the bits from `nbits` on being 0. The word is
laid out as memory holds it (R33) and given to `decodeBytes`. -/
def decodeTableWord (nbits w : Nat) : Option Instr :=
  match decodeBytes (opcodeBytes (BitVec.ofNat 16 (w % 2 ^ nbits))) with
  | .ok (i, _) => some i
  | .error _ => none

end Sys2Proof
end

