-- ==== Sys2Proof/Machine/State.lean ====
section
/-! DEFINITION. The architectural state (R10), its reset values (R26) and the reasons a step of the model can stop. -/

namespace Sys2Proof.Machine

/-- The cause of a fault of the hardware (R101; the split of the bounds class in three is the spec's decision D6). -/
inductive FaultCause where
  /-- The opcode matches no row of the opcode map (R103). -/
  | unhandledInstruction
  /-- A Fetch with `pc >= 4095` (R102). -/
  | fetchBounds
  /-- A CALL with `sp == 16` (R72). -/
  | stackOverflow
  /-- A RET with `sp == 0` (R73). -/
  | stackUnderflow
deriving DecidableEq, Repr

/-- The latched fault record (R23): `addr` is `pc` when the faulting Step began, `opcode` the opcode fetched, or 0x0000
when the fault arose in Fetch. -/
structure FaultRecord where
  cause : FaultCause
  addr : Word
  opcode : Opcode
deriving DecidableEq, Repr

/-- The bytes of memory that differ from the reset contents, by strictly rising address (log 2). -/
abbrev Memory := List Host.Cell

/-- The 2048 one-bit pixels, bit `k` being `screen[k]` (R10: "2048 bits"; R20; log 9). -/
abbrev Screen := BitVec 2048

/-- The whole architectural state: "Nothing else persists between operations" (R10). -/
structure State where
  /-- Program counter (R13). -/
  pc : Word
  /-- Memory (R22), read and written only through `readByte` and `writeByte`. -/
  mem : Memory
  /-- Screen buffer (R20). -/
  screen : Screen
  /-- General registers V0 to VF (R11). -/
  v : Vector Byte 16
  /-- Index register `I` (R16). No instruction and no port reaches it. -/
  i : Word
  /-- Call stack (R17). -/
  stack : Vector Word 16
  /-- Stack pointer: the 17 values 0 to 16 (R18). -/
  sp : Fin 17
  /-- Key flags (R21). -/
  keys : Vector Bool 16
  /-- Delay timer `DT` (R19). -/
  dt : Byte
  /-- Sound timer `ST` (R19). -/
  st : Byte
  /-- The fault record; while it is set the core is halted (R23). -/
  fault : Option FaultRecord
deriving DecidableEq, Repr

/-- The state after RESET, and after power-on (R26, R120; power-on is D20, log 27). Memory lists nothing: every byte
is at its reset value (log 2). -/
def State.reset : State where
  pc := 0x0200#16
  mem := []
  screen := BitVec.zero 2048
  v := Vector.replicate 16 0x00#8
  i := 0x0000#16
  stack := Vector.replicate 16 0x0000#16
  sp := 0
  keys := Vector.replicate 16 false
  dt := 0x00#8
  st := 0x00#8
  fault := none

/-- Why a step of the MODEL stops. The four faults of the hardware are not here: they latch a record and the machine
goes on to a next state (R105, log 3). -/
inductive Fault where
  /-- Memory was accessed at an address outside 0 to 4095, which does not exist (R31, R32: "defined only for
  `0 <= addr <= 4095`"). Raised by `step` and `perform` where `readByte` or `writeByte` answers none; Fetch checks its
  bound first (R34) and LOAD's address has 12 bits (R92), so no state reaches it (log 5). Safe. -/
  | noSuchAddress (addr : Nat)
deriving DecidableEq, Repr

/-- Why an instruction has no meaning in the model. -/
inductive Refusal where
  /-- The arm of an instruction that has no meaning yet would answer it; every instruction has one, so nothing answers
  it (log 6). Safe. -/
  | notModelled (mnemonic : String)
deriving DecidableEq, Repr

end Sys2Proof.Machine
end

