-- ==== Sys2Proof/Machine/Ops.lean ====
section
/-! DEFINITION. The named operations over memory, the program counter, the registers, the call stack and the fault
record. Every instruction and command goes through them. -/

namespace Sys2Proof.Machine

/-! ## Memory (R30 to R37) -/

/-- What a byte of memory holds after Reset: `FONT` at 0x000 to 0x04F, 0x00 elsewhere (R26, R120). It is what an
address that `mem` does not list reads as (log 2). -/
def resetByte (a : Nat) : Byte :=
  if h : a < 80 then Config.font[a] else 0x00#8

/-- The byte a memory holds at an address, the reset contents where it lists none. -/
def memLookup : Memory → Nat → Byte
  | [], a => resetByte a
  | (b, w) :: m, a => if b = a then w else memLookup m a

/-- Set one byte, keeping the addresses rising and no entry equal to the reset contents. -/
def memStore : Memory → Nat → Byte → Memory
  | [], a, x => if x = resetByte a then [] else [(a, x)]
  | (b, w) :: m, a, x =>
    if a < b then (if x = resetByte a then (b, w) :: m else (a, x) :: (b, w) :: m)
    else if a = b then (if x = resetByte a then m else (a, x) :: m)
    else (b, w) :: memStore m a x

/-- The canonical form: addresses strictly rising and inside the address space, no entry equal to the reset contents. -/
abbrev Memory.wf (m : Memory) : Prop :=
  m.Pairwise (fun p q => p.1 < q.1) ∧ ∀ p ∈ m, p.1 < Config.memSize ∧ p.2 ≠ resetByte p.1

/-- `MemRead(addr, 1)`: "defined only for `0 <= addr <= 4095`" (R31); none elsewhere. -/
def readByte (s : State) (a : Nat) : Option Byte :=
  if a < Config.memSize then some (memLookup s.mem a) else none

/-- `MemWrite(addr, 1, x)`, for `0 <= addr <= 4095` (R32); none elsewhere. -/
def writeByte (s : State) (a : Nat) (x : Byte) : Option State :=
  if a < Config.memSize then some { s with mem := memStore s.mem a x } else none

/-! ## Program counter (R13, R15) -/

/-- `pc <- target`. -/
def State.setPc (s : State) (target : Word) : State := { s with pc := target }

/-- `pc <- pc + 2`: Fetch's advance (R61) and a satisfied skip (R77). On 16 bits; after a Fetch that is in bounds the
sum never overflows (R15, log 29). -/
def State.advancePc (s : State) : State := s.setPc (s.pc + 2#16)

/-! ## General registers (R11) -/

/-- `V[x]`. -/
def State.reg (s : State) (x : RegNum) : Byte := s.v[x.toNat]'(x.isLt)

/-- `V[x] <- b`. VF is an ordinary register (R12). -/
def State.setReg (s : State) (x : RegNum) (b : Byte) : State := { s with v := s.v.set x.toNat b x.isLt }

/-! ## Screen (R20) -/

/-- `screen[k]`. -/
def State.pixel (s : State) (k : Fin 2048) : Bool := s.screen.getLsbD k.val

/-- The pixel in column `c` of row `r`, `screen[64*r + c]`. PRESUMED (R20 marks the orientation as general knowledge,
D19; log 10); nothing uses it. -/
def State.pixelAt (s : State) (r : Fin 32) (c : Fin 64) : Bool := s.screen.getLsbD (64 * r.val + c.val)

/-- `for k in 0..2047: screen[k] <- false` (R71). -/
def State.clearScreen (s : State) : State := { s with screen := BitVec.zero 2048 }

/-! ## Call stack (R72, R73) -/

/-- `push(a)` (R72): none, with nothing written, when the stack is full. The slot is `stack[sp]`, "the next free slot". -/
def push (s : State) (a : Word) : Option State :=
  if h : s.sp.val < 16 then
    some { s with stack := s.stack.set s.sp.val a h, sp := ⟨s.sp.val + 1, by omega⟩ }
  else none

/-- `pop()` (R73): none, with nothing written, when the stack is empty; else the most recently pushed address and the
state with `sp` one less. The entry stays in place (D9, log 20). -/
def pop (s : State) : Option (Word × State) :=
  if h : s.sp.val = 0 then none
  else some (s.stack[s.sp.val - 1]'(by have := s.sp.isLt; omega), { s with sp := ⟨s.sp.val - 1, by have := s.sp.isLt; omega⟩ })

/-! ## Faults (R105 to R108) -/

/-- `raise Fault(cause, addr, opcode)`: latch the record and write nothing more (R105, D5, log 3). The one operation
that takes a fault. There is no return from one: only RESET clears the record (R108). -/
def raiseFault (cause : FaultCause) (addr : Word) (opcode : Opcode) (s : State) : State :=
  { s with fault := some ⟨cause, addr, opcode⟩ }

/-- The core is halted: `fault != none` (R23, R107). -/
def State.halted (s : State) : Bool := s.fault.isSome

/-- The address `p` of the executing instruction: while it executes `pc` holds `p + 2` (R13, R61; log 4). -/
def State.instrAddr (s : State) : Word := s.pc - 2#16

/-! ## Placing an opcode where the next Step fetches it -/

/-- The state with an opcode in memory where the next STEP fetches, high byte first (R33), and nothing in the way of
that fetch: no fault latched (R65), and `pc` moved to 0x200 only where two bytes do not fit at it (R34). The host's
loading of a program in one move, ungated (log 7). -/
def placeOpcode (s : State) (op : Opcode) : State :=
  let p : Word := if s.pc.toNat + 1 < Config.memSize then s.pc else BitVec.ofNat 16 Config.programBase
  { s with
    pc := p
    mem := memStore (memStore s.mem p.toNat (lowerAddressByte op)) (p.toNat + 1) (higherAddressByte op)
    fault := none }

end Sys2Proof.Machine
end

