-- ==== Sys2Proof/Machine/Operands.lean ====
section
/-! DEFINITION. The operand forms (R47) and the arithmetic on them (R83). There is no addressing mode and no memory
operand (R36). -/

namespace Sys2Proof.Machine

/-- `zext_16(nnn)`: a JMP or CALL target, always in 0x000 to 0xFFF (R47). -/
def targetOf (nnn : Addr12) : Word := nnn.zeroExtend 16

/-- `(a + b) mod 256`: unsigned, the carry out of bit 7 discarded and recorded nowhere (R82, R83). -/
def addWrap (a b : Byte) : Byte := a + b

/-- Bitwise inclusive OR on 8 bits (R85). -/
def bitOr (a b : Byte) : Byte := a ||| b

/-- Bitwise AND on 8 bits (R86). -/
def bitAnd (a b : Byte) : Byte := a &&& b

/-- Bitwise exclusive OR on 8 bits (R87). -/
def bitXor (a b : Byte) : Byte := a ^^^ b

/-- `V[x] <- f(V[x], V[y])`: both operands are read before the result is written (R88). -/
def registerOp (f : Byte → Byte → Byte) (x y : RegNum) (s : State) : State :=
  s.setReg x (f (s.reg x) (s.reg y))

/-- `V[x] <- f(V[x], nn)` (R82). -/
def immediateOp (f : Byte → Byte → Byte) (x : RegNum) (nn : Byte) (s : State) : State :=
  s.setReg x (f (s.reg x) nn)

end Sys2Proof.Machine
end

