-- ==== Sys2Proof/Machine/ControlFlow.lean ====
section
/-! DEFINITION. RET, JMP and CALL (42_control_flow.md). -/

namespace Sys2Proof.Machine

/-- RET: `pc <- pop()`, all 16 bits; on an empty stack STACK_UNDERFLOW, with `sp`, `stack` and `pc` as Fetch left them
(R74, R73, R106). -/
def execRet (s : State) : Host.Outcome State Fault Refusal :=
  match pop s with
  | some (a, s') => .next (s'.setPc a)
  | none => .next (raiseFault .stackUnderflow s.instrAddr (encode .ret) s)

/-- JMP(nnn): `pc <- zext_16(nnn)` (R75). -/
def execJmp (nnn : Addr12) (s : State) : Host.Outcome State Fault Refusal := .next (s.setPc (targetOf nnn))

/-- CALL(nnn): `push(pc)`, then `pc <- zext_16(nnn)`; on a full stack STACK_OVERFLOW, with `sp`, `stack` and `pc` as
Fetch left them (R76, R72, R106). -/
def execCall (nnn : Addr12) (s : State) : Host.Outcome State Fault Refusal :=
  match push s s.pc with
  | some s' => .next (s'.setPc (targetOf nnn))
  | none => .next (raiseFault .stackOverflow s.instrAddr (encode (.call nnn)) s)

end Sys2Proof.Machine
end

