-- ==== Sys2Proof/Machine/Immediate.lean ====
section
/-! DEFINITION. LOAD_IMM and ADD_IMM (44_immediate.md). -/

namespace Sys2Proof.Machine

/-- LOAD_IMM(x, nn): `V[x] <- nn` (R81). -/
def execLoadImm (x : RegNum) (nn : Byte) (s : State) : Host.Outcome State Fault Refusal := .next (s.setReg x nn)

/-- ADD_IMM(x, nn): `V[x] <- (V[x] + nn) mod 256`, no carry flag (R82). -/
def execAddImm (x : RegNum) (nn : Byte) (s : State) : Host.Outcome State Fault Refusal :=
  .next (immediateOp addWrap x nn s)

end Sys2Proof.Machine
end

