-- ==== Sys2Proof/Machine/RegisterAlu.lean ====
section
/-! DEFINITION. COPY, OR, AND and XOR (45_register_alu.md): each writes `V[x]` and nothing else, VF included unless
x = 15 (R88). -/

namespace Sys2Proof.Machine

/-- COPY(x, y): `V[x] <- V[y]` (R84). -/
def execCopy (x y : RegNum) (s : State) : Host.Outcome State Fault Refusal := .next (s.setReg x (s.reg y))

/-- OR(x, y): `V[x] <- V[x] | V[y]` (R85). -/
def execOr (x y : RegNum) (s : State) : Host.Outcome State Fault Refusal := .next (registerOp bitOr x y s)

/-- AND(x, y): `V[x] <- V[x] & V[y]` (R86). -/
def execAnd (x y : RegNum) (s : State) : Host.Outcome State Fault Refusal := .next (registerOp bitAnd x y s)

/-- XOR(x, y): `V[x] <- V[x] ^ V[y]` (R87). -/
def execXor (x y : RegNum) (s : State) : Host.Outcome State Fault Refusal := .next (registerOp bitXor x y s)

end Sys2Proof.Machine
end

