-- ==== Sys2Proof/Machine/Flags.lean ====
section
/-! DEFINITION. Conditions. The hardware has NO status flag and no condition code (R12): the skips test equality and
record it nowhere but in `pc` (R77), and no instruction writes a flag, VF included. -/

namespace Sys2Proof.Machine

/-- The one comparison: equality of two 8-bit unsigned values, all 8 bits (R77). -/
def equalBytes (a b : Byte) : Bool := a == b

/-- A skip: "when its condition holds, performs `pc <- pc + 2`; otherwise it does nothing" (R77). The skipped bytes are
neither read nor decoded. -/
def skipIf (condition : Bool) (s : State) : State := if condition then s.advancePc else s

end Sys2Proof.Machine
end

