-- ==== Sys2Proof/Machine/Skips.lean ====
section
/-! DEFINITION. The conditional skips (43_skips.md). -/

namespace Sys2Proof.Machine

/-- SKIP_EQ_IMM(x, nn): `if V[x] == nn: pc <- pc + 2` (R78). -/
def execSkipEqImm (x : RegNum) (nn : Byte) (s : State) : Host.Outcome State Fault Refusal :=
  .next (skipIf (equalBytes (s.reg x) nn) s)

/-- SKIP_NEQ_IMM(x, nn): `if V[x] != nn: pc <- pc + 2` (R79). -/
def execSkipNeqImm (x : RegNum) (nn : Byte) (s : State) : Host.Outcome State Fault Refusal :=
  .next (skipIf (!equalBytes (s.reg x) nn) s)

/-- SKIP_EQ_REG(x, y): `if V[x] == V[y]: pc <- pc + 2` (R80). -/
def execSkipEqReg (x y : RegNum) (s : State) : Host.Outcome State Fault Refusal :=
  .next (skipIf (equalBytes (s.reg x) (s.reg y)) s)

end Sys2Proof.Machine
end

