-- ==== Sys2Proof/Machine/System.lean ====
section
/-! DEFINITION. NOP and CLS (41_system.md). Every meaning runs at R60 line 6: `pc` already holds the instruction's
address plus 2. -/

namespace Sys2Proof.Machine

/-- NOP: "no state change" (R70). -/
def execNop (s : State) : Host.Outcome State Fault Refusal := .next s

/-- CLS: every pixel false, "regardless of prior content" (R71). -/
def execCls (s : State) : Host.Outcome State Fault Refusal := .next s.clearScreen

end Sys2Proof.Machine
end

