-- ==== Sys2Proof/Machine/Fetch.lean ====
section
/-! DEFINITION. Fetch (R61): the bounds check, the big-endian read of the opcode, the advance of `pc`; and the two
faults a Step raises before any instruction runs (R60 lines 3 and 6). -/

namespace Sys2Proof.Machine

/-- A Fetch is in bounds exactly when `pc + 1 <= 4095`, "the sum taken on integers without wrap-around" (R34, C1). -/
def fetchInBounds (s : State) : Bool := decide (s.pc.toNat + 1 ≤ 4095)

/-- `op <- MemRead(p, 1) ∥ MemRead(p+1, 1)` (R60 line 4, R33); none where a byte does not exist. -/
def fetchOpcode (s : State) : Option Opcode :=
  match readByte s s.pc.toNat, readByte s (s.pc.toNat + 1) with
  | some lower, some higher => some (joinBytes lower higher)
  | _, _ => none

/-- The state a Fetch out of bounds leaves: FETCH_BOUNDS latched with `addr = pc` and opcode 0x0000, `pc` unchanged
(R60 line 3, R102, R106). -/
def faultFetchBounds (s : State) : State := raiseFault .fetchBounds s.pc 0x0000#16 s

/-- The state an illegal opcode leaves: UNHANDLED_INSTRUCTION latched with the address of the instruction and the
opcode, `pc` at the address + 2, Fetch's advance not rolled back (R60 line 6, R103, R106). -/
def faultUnhandled (op : Opcode) (s : State) : State := raiseFault .unhandledInstruction s.pc op s.advancePc

end Sys2Proof.Machine
end

