-- ==== Sys2Proof/Machine/Step.lean ====
section
/-! DEFINITION. The Step cycle (R60), and placing an instruction where it is fetched. -/

namespace Sys2Proof.Machine

/-- STEP, line by line as R60: held while halted (line 1; the state does not change, and `perform` reports
STEP_REFUSED, log 8); the Fetch bounds check (line 3); the read (line 4); the advance (line 5); decode and execute
(line 6). A fault of the hardware is a next state with its record latched (log 3). -/
def step (s : State) : Host.Outcome State Fault Refusal :=
  if s.halted then .next s
  else if fetchInBounds s then
    match fetchOpcode s with
    | none => .fault (.noSuchAddress (s.pc.toNat + 1))
    | some op =>
      match decode op with
      | .ok i => exec i s.advancePc
      | .error _ => .next (faultUnhandled op s)
  else .next (faultFetchBounds s)

/-- `s` with the instruction whose bits are `w` (numbered as spec/opcode_table.json numbers them, 0 from `nbits` on)
placed where `step` fetches its next instruction (log 7). -/
def State.withFetchWord (s : State) (nbits w : Nat) : State := placeOpcode s (BitVec.ofNat 16 (w % 2 ^ nbits))

end Sys2Proof.Machine
end

