-- ==== Sys2Proof/Machine/Timer.lean ====
section
/-! DEFINITION. The timer decrement unit (R112) and its audio signals (R113). -/

namespace Sys2Proof.Machine

/-- One count down: by 1 while above 0, "from value 0 it stays 0" (R112). -/
def countDown (t : Byte) : Byte := if 0#8 < t then t - 1#8 else t

/-- TimerTick: held while a fault is latched, else both timers count down, each on its own (R112, R107). -/
def timerTick (s : State) : State :=
  if s.halted then s else { s with dt := countDown s.dt, st := countDown s.st }

/-- `audio_cue` of a TICK in this state: true exactly when the TICK is performed, not held, and finds `ST == 1`
(R112, R113). -/
def tickCue (s : State) : Bool := !s.halted && s.st == 1#8

/-- `sound_active`: the level `ST != 0` (R113). -/
def soundActive (s : State) : Bool := s.st != 0#8

end Sys2Proof.Machine
end

