-- ==== Sys2Proof/Machine/Command.lean ====
section
/-! DEFINITION. The interface to the host (50_host_interface.md): the commands, what each does, the outputs, the pins,
and sequences of commands. The model's time is the index in the command sequence (R130). -/

namespace Sys2Proof.Machine

/-- A command of the host (R90). -/
inductive Command where
  /-- IDLE: changes nothing. -/
  | idle
  /-- RESET (R120). -/
  | reset
  /-- STEP (R60). -/
  | step
  /-- TICK (R112). -/
  | tick
  /-- LOAD(addr, data) (R92). -/
  | load (addr : Addr12) (data : Byte)
  /-- SETKEY(k, b) (R93). -/
  | setKey (k : BitVec 4) (b : Bool)
deriving DecidableEq, Repr

/-- The `result` output (R64, R96). The spec gives its three values and its width, 2 bits, and no codes. -/
inductive StepResult where
  | stepOk
  | stepFault
  | stepRefused
deriving DecidableEq, Repr

/-- What a command answers: the state it leaves, and the two outputs that belong to the command and not to the state
(R27, R96). -/
structure Response where
  state : State
  result : StepResult
  audioCue : Bool
deriving DecidableEq, Repr

/-- `result` of a STEP, from the states before and after it (R64): refused where a fault was already latched, fault
where this Step latched one, else ok. -/
def stepResult (before after : State) : StepResult :=
  if before.halted then .stepRefused else if after.halted then .stepFault else .stepOk

/-- `keys[k] <- b` (R93). -/
def State.setKeyFlag (s : State) (k : BitVec 4) (b : Bool) : State := { s with keys := s.keys.set k.toNat b k.isLt }

/-- `LOAD(addr, data)`: "if addr >= 0x200: MemWrite(addr, 1, data); else nothing" (R92, R32); none where the byte does
not exist, which no 12-bit address is. -/
def loadByte (s : State) (addr : Addr12) (data : Byte) : Option State :=
  if Config.programBase ≤ addr.toNat then writeByte s addr.toNat data else some s

/-- One command, a single atomic transition (R90). STEP and TICK are the only ones a latched fault holds (R94). -/
def perform (c : Command) (s : State) : Host.Outcome Response Fault Refusal :=
  match c with
  | .idle => .next ⟨s, .stepOk, false⟩
  | .reset => .next ⟨State.reset, .stepOk, false⟩
  | .step =>
    match Sys2Proof.Machine.step s with
    | .next t => .next ⟨t, stepResult s t, false⟩
    | .fault f => .fault f
    | .refused r => .refused r
  | .tick => .next ⟨timerTick s, .stepOk, tickCue s⟩
  | .load addr data =>
    match loadByte s addr data with
    | some t => .next ⟨t, .stepOk, false⟩
    | none => .fault (.noSuchAddress addr.toNat)
  | .setKey k b => .next ⟨s.setKeyFlag k b, .stepOk, false⟩

/-- Commands one after another, each seeing the whole effect of the one before (R90, R40). -/
def performAll : List Command → State → Host.Outcome State Fault Refusal
  | [], s => .next s
  | c :: cs, s =>
    match perform c s with
    | .next r => performAll cs r.state
    | .fault f => .fault f
    | .refused r => .refused r

/-! ## Outputs (R96) -/

/-- The 3-bit cause code (R101, D6); 5 to 7 are never produced. -/
def FaultCause.code : FaultCause → BitVec 3
  | .unhandledInstruction => 1#3
  | .fetchBounds => 2#3
  | .stackOverflow => 3#3
  | .stackUnderflow => 4#3

/-- The two fault classes of the document (R100, R101). -/
inductive FaultClass where
  | unhandledInstructionFault
  | boundsFault
deriving DecidableEq, Repr

/-- The "class in the document" column of R101. -/
def FaultCause.classOf : FaultCause → FaultClass
  | .unhandledInstruction => .unhandledInstructionFault
  | .fetchBounds | .stackOverflow | .stackUnderflow => .boundsFault

/-- All outputs of the core (R96). -/
structure Outputs where
  result : StepResult
  faultValid : Bool
  faultCause : BitVec 3
  faultAddr : Word
  faultOpcode : Opcode
  audioCue : Bool
  soundActive : Bool
  screenOut : Screen
deriving DecidableEq, Repr

/-- The outputs after a command: `result` and `audio_cue` belong to the command, the others are functions of the state;
the fault outputs are 0 while no fault is latched (R96). -/
def outputs (r : Response) : Outputs where
  result := r.result
  faultValid := r.state.fault.isSome
  faultCause := match r.state.fault with | some f => f.cause.code | none => 0#3
  faultAddr := match r.state.fault with | some f => f.addr | none => 0#16
  faultOpcode := match r.state.fault with | some f => f.opcode | none => 0#16
  audioCue := r.audioCue
  soundActive := Sys2Proof.Machine.soundActive r.state
  screenOut := r.state.screen

/-! ## Pins (R97, D11) and loading a program (R92, R124) -/

/-- The command on the input pins: `cmd` 0 IDLE, 1 RESET, 2 STEP, 3 TICK, 4 LOAD, 5 SETKEY; 6 and 7 are treated as IDLE
(R97). -/
def commandOfPins (cmd : BitVec 3) (addr : Addr12) (data : Byte) (key : BitVec 4) (keyval : Bool) : Command :=
  if cmd = 1#3 then .reset
  else if cmd = 2#3 then .step
  else if cmd = 3#3 then .tick
  else if cmd = 4#3 then .load addr data
  else if cmd = 5#3 then .setKey key keyval
  else .idle

/-- The LOADs that place bytes from an address upward (R92). -/
def loadCommandsFrom : Nat → List Byte → List Command
  | _, [] => []
  | a, b :: bs => .load (BitVec.ofNat 12 a) b :: loadCommandsFrom (a + 1) bs

/-- The boot sequence of R124: RESET, then LOAD of every program byte `b[i]` at `0x200 + i`. The program is to satisfy
`wellFormedProgram`. -/
def bootCommands (program : List Byte) : List Command := .reset :: loadCommandsFrom Config.programBase program

end Sys2Proof.Machine
end

