-- ==== Sys2Proof/Safety.lean ====
section
/-! DEFINITION. The terms claims use: what a safe STEP is, runs and reachable states, the invariants of R125, and what
an operation leaves unchanged (R63). -/

namespace Sys2Proof.Machine

/-! ## Safe steps and runs -/

/-- Nothing goes wrong when this instruction executes: of the 14 only CALL on a full stack and RET on an empty one can
fault (R66, R63, R127 c). -/
def ExecutesSafely : Instr → State → Prop
  | .call _, s => s.sp.val < 16
  | .ret, s => 0 < s.sp.val
  | _, _ => True

/-- The next STEP completes an instruction, `STEP_OK` (R64, R127 c to e): no fault latched, the fetch in bounds, the
opcode one of the 14, the stack bounds respected. -/
def StepsSafely (s : State) : Prop :=
  s.fault = none ∧ s.pc.toNat ≤ 4094 ∧ ∃ op i, fetchOpcode s = some op ∧ decode op = .ok i ∧ ExecutesSafely i s

/-- The idle loop (R99): the instruction at `pc` is a JMP to its own address. -/
def IdleLoop (s : State) : Prop :=
  s.fault = none ∧ s.pc.toNat ≤ 4094 ∧ ∃ nnn, fetchOpcode s = some (encode (.jmp nnn)) ∧ targetOf nnn = s.pc

/-- The state some sequence of commands leads to from Reset (R99, R125; power-on is Reset, D20, log 27). -/
def Reachable (s : State) : Prop := ∃ cs, performAll cs State.reset = .next s

/-! ## Invariants (R125) -/

/-- R125 (a) to (d), which the spec derives, and the canonical form of memory, which is the model's own (log 2). -/
structure State.Inv (s : State) : Prop where
  /-- The model's own (log 2, DEDUCED), and no invariant of the spec. -/
  memCanonical : Memory.wf s.mem
  /-- (a) the font and the reserved zeros: every byte below 0x200 reads as after Reset (R32). -/
  lowMemory : ∀ a, a < Config.programBase → readByte s a = some (resetByte a)
  /-- (b) `0 <= pc <= 4098` (R15). -/
  pcBound : s.pc.toNat ≤ 4098
  /-- (c) every held return address is at most 4096 (R76); `0 <= sp <= 16` is `sp`'s type. -/
  stackBound : ∀ k (h : k < 16), k < s.sp.val → s.stack[k].toNat ≤ 4096
  /-- (d) `I` is 0 (R16). -/
  indexZero : s.i = 0#16
  /-- (d) `DT` is 0 (R19). -/
  delayZero : s.dt = 0#8
  /-- (d) `ST` is 0 (R19). -/
  soundZero : s.st = 0#8
  /-- (d) every pixel is false (R20). -/
  screenClear : ∀ k, s.pixel k = false

/-! ## What an operation leaves unchanged -/

/-- Every byte of memory reads as before. -/
def SameMemory (s t : State) : Prop := ∀ a, readByte t a = readByte s a

/-- Every general register but `x` is as before. -/
def SameRegsExcept (x : RegNum) (s t : State) : Prop := ∀ k, k ≠ x → t.reg k = s.reg k

/-- Every general register is as before. -/
def SameRegs (s t : State) : Prop := ∀ k, t.reg k = s.reg k

/-- The call stack and its pointer are as before. -/
def SameStack (s t : State) : Prop := t.stack = s.stack ∧ t.sp = s.sp

/-- `I`, the timers, the key flags and the fault record are as before. -/
def SameSpecial (s t : State) : Prop :=
  t.i = s.i ∧ t.dt = s.dt ∧ t.st = s.st ∧ t.keys = s.keys ∧ t.fault = s.fault

/-- The screen is as before. -/
def SameScreen (s t : State) : Prop := t.screen = s.screen

/-- Nothing but `pc` may differ. -/
def OnlyPcMayChange (s t : State) : Prop :=
  SameRegs s t ∧ SameMemory s t ∧ SameStack s t ∧ SameSpecial s t ∧ SameScreen s t

/-- Nothing but `V[x]` may differ, `pc` included. -/
def OnlyRegisterMayChange (x : RegNum) (s t : State) : Prop :=
  t.pc = s.pc ∧ SameRegsExcept x s t ∧ SameMemory s t ∧ SameStack s t ∧ SameSpecial s t ∧ SameScreen s t

/-! ## Names for what the rules speak of -/

/-- The opcode with this value decodes to this instruction. -/
def EncodedAs (w : Nat) (i : Instr) : Prop := decode (BitVec.ofNat 16 w) = .ok i

/-- The opcode with this value is illegal (R52). -/
def Illegal (w : Nat) : Prop := decode (BitVec.ofNat 16 w) = .error (.unhandledInstruction (BitVec.ofNat 16 w))

/-- The register an instruction names as its `x` operand to write, if it writes one (R10, R88). -/
def destination : Instr → Option RegNum
  | .loadImm x _ | .addImm x _ | .copy x _ | .orReg x _ | .andReg x _ | .xorReg x _ => some x
  | _ => none

/-- The instructions that write `pc` themselves: "JMP, CALL, RET, the three skips" (R10). -/
def writesPc : Instr → Bool
  | .ret | .jmp _ | .call _ | .skipEqImm _ _ | .skipNeqImm _ _ | .skipEqReg _ _ => true
  | _ => false

/-- R14's table: `pc` after a Step that completes the instruction, from the state in which the Step began. -/
def pcAfter (i : Instr) (s : State) : Nat :=
  match i with
  | .nop | .cls | .loadImm _ _ | .addImm _ _ | .copy _ _ | .orReg _ _ | .andReg _ _ | .xorReg _ _ => s.pc.toNat + 2
  | .skipEqImm x nn => if s.reg x = nn then s.pc.toNat + 4 else s.pc.toNat + 2
  | .skipNeqImm x nn => if s.reg x ≠ nn then s.pc.toNat + 4 else s.pc.toNat + 2
  | .skipEqReg x y => if s.reg x = s.reg y then s.pc.toNat + 4 else s.pc.toNat + 2
  | .jmp nnn | .call nnn => nnn.toNat
  | .ret => match pop s with | some (a, _) => a.toNat | none => s.pc.toNat + 2

/-- Pushes, one after another (R72). -/
def pushAll : List Word → State → Option State
  | [], s => some s
  | a :: as, s => match push s a with | some t => pushAll as t | none => none

/-- `n` pops, one after another, with the addresses in the order they come (R73). -/
def popAll : Nat → State → Option (List Word × State)
  | 0, s => some ([], s)
  | n + 1, s =>
    match pop s with
    | some (a, t) => match popAll n t with | some (as, u) => some (a :: as, u) | none => none
    | none => none

end Sys2Proof.Machine
end

