-- ==== Sys2Proof/Certificates/Slice0/Obligations.lean ====
section
/-! DEFINITION. The statements for the provers. Each names the rule of the spec it formalises. A statement that rests on
one of the spec's own decisions (D<n>) or derivations says so and names the log entry. -/

open Sys2Proof Sys2Proof.Machine

/-! ## Encoding -/

/-- Words written out from the bit strings of R49, and words next to them that match no row. -/
def Obligations.SampleWordsDecode : Prop :=
  decode 0b0000000000000000#16 = .ok .nop ∧ decode 0b0000000011100000#16 = .ok .cls ∧
  decode 0b0000000011101110#16 = .ok .ret ∧ decode 0b0001101010111100#16 = .ok (.jmp 0xABC#12) ∧
  decode 0b0010001101000101#16 = .ok (.call 0x345#12) ∧ decode 0b0011001101000010#16 = .ok (.skipEqImm 3#4 0x42#8) ∧
  decode 0b0100001101000010#16 = .ok (.skipNeqImm 3#4 0x42#8) ∧ decode 0b0101101010110000#16 = .ok (.skipEqReg 0xA#4 0xB#4) ∧
  decode 0b0110101001111011#16 = .ok (.loadImm 0xA#4 0x7B#8) ∧ decode 0b0111111100000010#16 = .ok (.addImm 0xF#4 0x02#8) ∧
  decode 0b1000111111100000#16 = .ok (.copy 0xF#4 0xE#4) ∧ decode 0b1000000100100001#16 = .ok (.orReg 1#4 2#4) ∧
  decode 0b1000000100100010#16 = .ok (.andReg 1#4 2#4) ∧ decode 0b1000000100100011#16 = .ok (.xorReg 1#4 2#4) ∧
  Illegal 0x00E1 ∧ Illegal 0x5011 ∧ Illegal 0x8014 ∧ Illegal 0x9010 ∧ Illegal 0xFFFF ∧
  decodeBytes [0x6A#8, 0x7B#8, 0x99#8] = .ok (.loadImm 0xA#4 0x7B#8, [0x99#8]) ∧ decodeBytes [0x6A#8] = .error .truncated

/-- The whole opcode map (R49), row by row: a word selects the row exactly when `op & mask == match`, its operands are
the slices `x = op[11:8]`, `y = op[7:4]`, `nn = op[7:0]`, `nnn = op[11:0]` (R47), and a word of no row is illegal. -/
def Obligations.DecodeFollowsTheOpcodeMap : Prop :=
  ∀ op : Opcode,
    let x : RegNum := BitVec.ofNat 4 (op.toNat / 256)
    let y : RegNum := BitVec.ofNat 4 (op.toNat / 16)
    let nn : Byte := BitVec.ofNat 8 op.toNat
    let nnn : Addr12 := BitVec.ofNat 12 op.toNat
    (op = 0x0000#16 → decode op = .ok .nop) ∧
    (op = 0x00E0#16 → decode op = .ok .cls) ∧
    (op = 0x00EE#16 → decode op = .ok .ret) ∧
    (op &&& 0xF000#16 = 0x1000#16 → decode op = .ok (.jmp nnn)) ∧
    (op &&& 0xF000#16 = 0x2000#16 → decode op = .ok (.call nnn)) ∧
    (op &&& 0xF000#16 = 0x3000#16 → decode op = .ok (.skipEqImm x nn)) ∧
    (op &&& 0xF000#16 = 0x4000#16 → decode op = .ok (.skipNeqImm x nn)) ∧
    (op &&& 0xF00F#16 = 0x5000#16 → decode op = .ok (.skipEqReg x y)) ∧
    (op &&& 0xF000#16 = 0x6000#16 → decode op = .ok (.loadImm x nn)) ∧
    (op &&& 0xF000#16 = 0x7000#16 → decode op = .ok (.addImm x nn)) ∧
    (op &&& 0xF00F#16 = 0x8000#16 → decode op = .ok (.copy x y)) ∧
    (op &&& 0xF00F#16 = 0x8001#16 → decode op = .ok (.orReg x y)) ∧
    (op &&& 0xF00F#16 = 0x8002#16 → decode op = .ok (.andReg x y)) ∧
    (op &&& 0xF00F#16 = 0x8003#16 → decode op = .ok (.xorReg x y)) ∧
    ((op ≠ 0x0000#16 ∧ op ≠ 0x00E0#16 ∧ op ≠ 0x00EE#16 ∧
      (∀ d : BitVec 4, d ∈ [1#4, 2#4, 3#4, 4#4, 6#4, 7#4] → op &&& 0xF000#16 ≠ d ++ 0x000#12) ∧
      op &&& 0xF00F#16 ≠ 0x5000#16 ∧ op &&& 0xF00F#16 ≠ 0x8000#16 ∧ op &&& 0xF00F#16 ≠ 0x8001#16 ∧
      op &&& 0xF00F#16 ≠ 0x8002#16 ∧ op &&& 0xF00F#16 ≠ 0x8003#16) →
      decode op = .error (.unhandledInstruction op))

/-- R47. `x = op[11:8]`, `y = op[7:4]`, `nn = op[7:0]` and `nnn = op[11:0]` are contiguous unsigned slices; the decoder
hands them to the instruction as they stand; and an address written to `pc` is `nnn` zero-extended, so always in 0x000
to 0xFFF. -/
def Obligations.OperandsAreSlicesOfTheOpcode : Prop :=
  (∀ op : Opcode,
    (fieldX op).toNat = op.toNat / 256 % 16 ∧ (fieldY op).toNat = op.toNat / 16 % 16 ∧
    (fieldNN op).toNat = op.toNat % 256 ∧ (fieldNNN op).toNat = op.toNat % 4096 ∧
    (∀ i, decode op = .ok i →
      match i with
      | .nop | .cls | .ret => True
      | .jmp nnn | .call nnn => nnn = fieldNNN op
      | .skipEqImm x nn | .skipNeqImm x nn | .loadImm x nn | .addImm x nn => x = fieldX op ∧ nn = fieldNN op
      | .skipEqReg x y | .copy x y | .orReg x y | .andReg x y | .xorReg x y => x = fieldX op ∧ y = fieldY op)) ∧
  ∀ nnn : Addr12, (targetOf nnn).toNat = nnn.toNat ∧ (targetOf nnn).toNat ≤ 0xFFF

/-- Decoding an encoded instruction gives it back, whatever its operands. -/
def Obligations.DecodeInvertsEncode : Prop := ∀ i : Instr, decode (encode i) = .ok i

/-- The encoding of a decoded instruction is the opcode it was decoded from: no bit of a defined opcode is ignored
(R51, which the spec derives from R49). -/
def Obligations.EncodeInvertsDecode : Prop := ∀ (op : Opcode) (i : Instr), decode op = .ok i → encode i = op

/-- Each 16-bit value matches at most one row of the opcode map (R50, which the spec derives from R49). -/
def Obligations.OpcodePatternsAreDisjoint : Prop :=
  ∀ (op : Opcode) (r q : OpcodeRow), r ∈ opcodeTable → q ∈ opcodeTable → rowMatches r op = true → rowMatches q op = true →
    r = q

/-- R55's table of encodings as arithmetic on the operands (the assembly syntax is the spec's decision D13, log 24). -/
def Obligations.EncodingsAreTheArithmeticOnes : Prop :=
  (∀ nnn : Addr12, (encode (.jmp nnn)).toNat = 0x1000 + nnn.toNat ∧ (encode (.call nnn)).toNat = 0x2000 + nnn.toNat) ∧
  (∀ (x : RegNum) (nn : Byte),
    (encode (.skipEqImm x nn)).toNat = 0x3000 + 256 * x.toNat + nn.toNat ∧
    (encode (.skipNeqImm x nn)).toNat = 0x4000 + 256 * x.toNat + nn.toNat ∧
    (encode (.loadImm x nn)).toNat = 0x6000 + 256 * x.toNat + nn.toNat ∧
    (encode (.addImm x nn)).toNat = 0x7000 + 256 * x.toNat + nn.toNat) ∧
  (∀ x y : RegNum,
    (encode (.skipEqReg x y)).toNat = 0x5000 + 256 * x.toNat + 16 * y.toNat ∧
    (encode (.copy x y)).toNat = 0x8000 + 256 * x.toNat + 16 * y.toNat ∧
    (encode (.orReg x y)).toNat = 0x8001 + 256 * x.toNat + 16 * y.toNat ∧
    (encode (.andReg x y)).toNat = 0x8002 + 256 * x.toNat + 16 * y.toNat ∧
    (encode (.xorReg x y)).toNat = 0x8003 + 256 * x.toNat + 16 * y.toNat) ∧
  encode .nop = 0x0000#16 ∧ encode .cls = 0x00E0#16 ∧ encode .ret = 0x00EE#16

/-- The assembly syntax and the instructions correspond one to one (R55; the spec's decision D13, log 24): a term
assembles exactly when it is well-formed, and to the one instruction it is the writing of. -/
def Obligations.AssemblyTermsAreInstructions : Prop :=
  (∀ i : Instr, (disassemble i).wellFormed = true ∧ assemble (disassemble i) = some i) ∧
  (∀ (t : AsmTerm) (i : Instr), assemble t = some i → disassemble i = t) ∧
  (∀ t : AsmTerm, t.wellFormed = true → ∃ i, assemble t = some i)

/-! ## The instructions: value, frame and completion. `exec` runs at R60 line 6, where `pc` is the instruction's address
plus 2. -/

/-- R70. NOP is 0x0000 and changes no state, beyond the Step's own `pc <- pc + 2`; two zero bytes at an odd address are
NOP as well. -/
def Obligations.NopChangesNothing : Prop :=
  EncodedAs 0x0000 .nop ∧ (∀ s, exec .nop s = .next s) ∧
  ∀ s : State, s.fault = none → s.pc.toNat ≤ 4094 → readByte s s.pc.toNat = some 0x00#8 →
    readByte s (s.pc.toNat + 1) = some 0x00#8 →
    ∃ t, step s = .next t ∧ t.pc.toNat = s.pc.toNat + 2 ∧ OnlyPcMayChange s t

/-- R71. CLS is 0x00E0 and makes every pixel false, whatever the screen held; nothing else changes. -/
def Obligations.ClsClearsTheScreen : Prop :=
  EncodedAs 0x00E0 .cls ∧
  ∀ s, ∃ t, exec .cls s = .next t ∧ (∀ k, t.pixel k = false) ∧
    t.pc = s.pc ∧ SameRegs s t ∧ SameMemory s t ∧ SameStack s t ∧ SameSpecial s t

/-- R75. JMP is 0x1NNN and sets `pc` to `nnn`, zero-extended, for each of the 4096 targets; nothing else changes. -/
def Obligations.JmpSetsPc : Prop :=
  ∀ nnn : Addr12, EncodedAs (0x1000 + nnn.toNat) (.jmp nnn) ∧
    ∀ s, ∃ t, exec (.jmp nnn) s = .next t ∧ t.pc.toNat = nnn.toNat ∧ OnlyPcMayChange s t

/-- CALL with a free slot (42_control_flow.md section 2): the value of `pc` after Fetch goes into the next free slot,
`sp` counts it, and `pc` becomes `nnn`; no other entry, register, byte of memory or special register changes. -/
def Obligations.CallPushesAndJumps : Prop :=
  ∀ nnn : Addr12, EncodedAs (0x2000 + nnn.toNat) (.call nnn) ∧
    ∀ s : State, s.sp.val < 16 → ∃ t, exec (.call nnn) s = .next t ∧
      t.pc.toNat = nnn.toNat ∧ t.sp.val = s.sp.val + 1 ∧
      (∀ k (h : k < 16), t.stack[k] = if k = s.sp.val then s.pc else s.stack[k]) ∧
      SameRegs s t ∧ SameMemory s t ∧ SameSpecial s t ∧ SameScreen s t

/-- RET with a held address (42_control_flow.md section 2): `pc` becomes the most recently pushed address, all 16 bits,
and `sp` counts one less; the entry stays in place (the spec's decision D9, log 20); nothing else changes. -/
def Obligations.RetPopsIntoPc : Prop :=
  EncodedAs 0x00EE .ret ∧
  ∀ (s : State) (k : Nat) (hk : k < 16), s.sp.val = k + 1 → ∃ t, exec .ret s = .next t ∧
    t.pc = s.stack[k] ∧ t.sp.val = k ∧ t.stack = s.stack ∧
    SameRegs s t ∧ SameMemory s t ∧ SameSpecial s t ∧ SameScreen s t

/-- CALL on a full stack. The record, its cause and the `pc` it leaves are the spec's decisions D5, D6 and D7 (log 3, 17,
18): a STACK_OVERFLOW record with the address of the CALL and its opcode is latched, `pc` is not set to `nnn`, and nothing
else changes. The address is read back as `pc - 2` on 16 bits: for a `pc` of 0 or 1, which no Fetch leaves, the wrapped
address is the model's own (log 4, DEDUCED). -/
def Obligations.CallOnFullStackLatchesOverflow : Prop :=
  ∀ (nnn : Addr12) (s : State), s.sp.val = 16 → ∃ t op, exec (.call nnn) s = .next t ∧
    t.fault = some ⟨.stackOverflow, s.pc - 2#16, op⟩ ∧ op.toNat = 0x2000 + nnn.toNat ∧
    t.pc = s.pc ∧ SameStack s t ∧ SameRegs s t ∧ SameMemory s t ∧ SameScreen s t ∧
    t.i = s.i ∧ t.dt = s.dt ∧ t.st = s.st ∧ t.keys = s.keys

/-- RET on an empty stack. The record, its cause and the `pc` it leaves are the spec's decisions D5, D6 and D7 (log 3, 17,
18): a STACK_UNDERFLOW record with the address of the RET and its opcode is latched and nothing else changes. The address
is read back as `pc - 2` on 16 bits: for a `pc` of 0 or 1, which no Fetch leaves, the wrapped address is the model's own
(log 4, DEDUCED). -/
def Obligations.RetOnEmptyStackLatchesUnderflow : Prop :=
  ∀ s : State, s.sp.val = 0 → ∃ t, exec .ret s = .next t ∧
    t.fault = some ⟨.stackUnderflow, s.pc - 2#16, 0x00EE#16⟩ ∧
    t.pc = s.pc ∧ SameStack s t ∧ SameRegs s t ∧ SameMemory s t ∧ SameScreen s t ∧
    t.i = s.i ∧ t.dt = s.dt ∧ t.st = s.st ∧ t.keys = s.keys

/-- SKIP_EQ_IMM (43_skips.md) is 0x3XNN and adds 2 to `pc` exactly when `V[x] == nn`; nothing else changes. The addition
is on 16 bits: for a `pc` above 0xFFFD, which no Fetch leaves, the wrap is the model's own (log 29, DEDUCED). -/
def Obligations.SkipEqImmSkipsWhenEqual : Prop :=
  ∀ (x : RegNum) (nn : Byte), EncodedAs (0x3000 + 256 * x.toNat + nn.toNat) (.skipEqImm x nn) ∧
    ∀ s, ∃ t, exec (.skipEqImm x nn) s = .next t ∧
      t.pc = (if s.reg x = nn then s.pc + 2#16 else s.pc) ∧ OnlyPcMayChange s t

/-- SKIP_NEQ_IMM (43_skips.md) is 0x4XNN and adds 2 to `pc` exactly when `V[x] != nn`, so exactly where SKIP_EQ_IMM with
the same operands does not; nothing else changes. The addition is on 16 bits: for a `pc` above 0xFFFD, which no Fetch
leaves, the wrap is the model's own (log 29, DEDUCED). -/
def Obligations.SkipNeqImmSkipsWhenDifferent : Prop :=
  ∀ (x : RegNum) (nn : Byte), EncodedAs (0x4000 + 256 * x.toNat + nn.toNat) (.skipNeqImm x nn) ∧
    ∀ s, ∃ t u, exec (.skipNeqImm x nn) s = .next t ∧ exec (.skipEqImm x nn) s = .next u ∧
      t.pc = (if s.reg x = nn then s.pc else s.pc + 2#16) ∧ OnlyPcMayChange s t ∧
      (t.pc = s.pc + 2#16 ↔ u.pc = s.pc)

/-- SKIP_EQ_REG (43_skips.md) is 0x5XY0 (0x5XY1 to 0x5XYF are illegal) and adds 2 to `pc` exactly when `V[x] == V[y]`, so
always when x is y; nothing else changes. The addition is on 16 bits: for a `pc` above 0xFFFD, which no Fetch leaves, the
wrap is the model's own (log 29, DEDUCED). -/
def Obligations.SkipEqRegSkipsWhenEqual : Prop :=
  ∀ x y : RegNum, EncodedAs (0x5000 + 256 * x.toNat + 16 * y.toNat) (.skipEqReg x y) ∧
    (∀ d, 1 ≤ d → d ≤ 15 → Illegal (0x5000 + 256 * x.toNat + 16 * y.toNat + d)) ∧
    ∀ s, ∃ t, exec (.skipEqReg x y) s = .next t ∧
      t.pc = (if s.reg x = s.reg y then s.pc + 2#16 else s.pc) ∧ (x = y → t.pc = s.pc + 2#16) ∧ OnlyPcMayChange s t

/-- R81. LOAD_IMM is 0x6XNN and puts `nn` into `V[x]`, VF included; nothing else changes. -/
def Obligations.LoadImmSetsTheRegister : Prop :=
  ∀ (x : RegNum) (nn : Byte), EncodedAs (0x6000 + 256 * x.toNat + nn.toNat) (.loadImm x nn) ∧
    ∀ s, ∃ t, exec (.loadImm x nn) s = .next t ∧ t.reg x = nn ∧ OnlyRegisterMayChange x s t

/-- R82. ADD_IMM is 0x7XNN and puts `(V[x] + nn) mod 256` into `V[x]`; nothing else changes, so VF receives no carry.
Two in a row leave `(V[x] + nn1 + nn2) mod 256`. -/
def Obligations.AddImmAddsModulo256 : Prop :=
  ∀ (x : RegNum) (nn : Byte), EncodedAs (0x7000 + 256 * x.toNat + nn.toNat) (.addImm x nn) ∧
    ∀ s, ∃ t, exec (.addImm x nn) s = .next t ∧ (t.reg x).toNat = ((s.reg x).toNat + nn.toNat) % 256 ∧
      OnlyRegisterMayChange x s t ∧
      ∀ nn2 : Byte, ∃ u, exec (.addImm x nn2) t = .next u ∧
        (u.reg x).toNat = ((s.reg x).toNat + nn.toNat + nn2.toNat) % 256

/-- R84. COPY is 0x8XY0 and puts `V[y]` into `V[x]`; nothing else changes, so `V[y]` keeps its value. -/
def Obligations.CopyCopiesTheRegister : Prop :=
  ∀ x y : RegNum, EncodedAs (0x8000 + 256 * x.toNat + 16 * y.toNat) (.copy x y) ∧
    ∀ s, ∃ t, exec (.copy x y) s = .next t ∧ t.reg x = s.reg y ∧ t.reg y = s.reg y ∧ OnlyRegisterMayChange x s t

/-- R85. OR is 0x8XY1 and puts the bitwise inclusive OR of `V[x]` and `V[y]` into `V[x]`; nothing else changes. -/
def Obligations.OrIsBitwise : Prop :=
  ∀ x y : RegNum, EncodedAs (0x8001 + 256 * x.toNat + 16 * y.toNat) (.orReg x y) ∧
    ∀ s, ∃ t, exec (.orReg x y) s = .next t ∧
      (∀ k, (t.reg x).getLsbD k = ((s.reg x).getLsbD k || (s.reg y).getLsbD k)) ∧ OnlyRegisterMayChange x s t

/-- R86. AND is 0x8XY2 and puts the bitwise AND of `V[x]` and `V[y]` into `V[x]`; nothing else changes. -/
def Obligations.AndIsBitwise : Prop :=
  ∀ x y : RegNum, EncodedAs (0x8002 + 256 * x.toNat + 16 * y.toNat) (.andReg x y) ∧
    ∀ s, ∃ t, exec (.andReg x y) s = .next t ∧
      (∀ k, (t.reg x).getLsbD k = ((s.reg x).getLsbD k && (s.reg y).getLsbD k)) ∧ OnlyRegisterMayChange x s t

/-- R87. XOR is 0x8XY3 and puts the bitwise exclusive OR of `V[x]` and `V[y]` into `V[x]`, 0x00 when x is y; nothing
else changes. -/
def Obligations.XorIsBitwise : Prop :=
  ∀ x y : RegNum, EncodedAs (0x8003 + 256 * x.toNat + 16 * y.toNat) (.xorReg x y) ∧
    ∀ s, ∃ t, exec (.xorReg x y) s = .next t ∧
      (∀ k, (t.reg x).getLsbD k = ((s.reg x).getLsbD k ^^ (s.reg y).getLsbD k)) ∧ (x = y → t.reg x = 0x00#8) ∧
      OnlyRegisterMayChange x s t

/-- R88. The four register-to-register instructions write `V[x]` and nothing else, VF only when x is 15; both operands
are read before the result is written; and digit4 from 4 to 15 is illegal. -/
def Obligations.RegisterFamilyWritesOnlyVx : Prop :=
  ∀ x y : RegNum,
    (∀ i f, (i, f) ∈ [(Instr.copy x y, fun _ b => b), (.orReg x y, fun a b => a ||| b), (.andReg x y, fun a b => a &&& b),
        (.xorReg x y, fun (a b : Byte) => a ^^^ b)] →
      ∀ s, ∃ t, exec i s = .next t ∧ t.reg x = f (s.reg x) (s.reg y) ∧ OnlyRegisterMayChange x s t ∧
        (x ≠ 15#4 → t.reg 15#4 = s.reg 15#4)) ∧
    ∀ d, 4 ≤ d → d ≤ 15 → Illegal (0x8000 + 256 * x.toNat + 16 * y.toNat + d)

/-- R63, the frame rule over all instructions and all operations. Each instruction writes only the register it names as
its `x` operand to write, so VF is no flag; only the control transfers and the skips write `pc`; none writes memory, `I`,
the keys or the timers; only CLS writes the screen; only CALL and RET write the stack; and apart from the stack bounds of
those two an instruction cannot fail. A LOAD writes memory only, a SETKEY the keys only, a TICK the timers only, a STEP
no memory, `I`, key or timer. -/
def Obligations.OperationsWriteOnlyWhatTheyName : Prop :=
  (∀ (i : Instr) (s : State), ∃ t, exec i s = .next t ∧
    (∀ k, destination i ≠ some k → t.reg k = s.reg k) ∧ (writesPc i = false → t.pc = s.pc) ∧
    SameMemory s t ∧ t.mem = s.mem ∧ t.i = s.i ∧ t.keys = s.keys ∧ t.dt = s.dt ∧ t.st = s.st ∧
    (i ≠ .cls → SameScreen s t) ∧
    (i ≠ .ret → (∀ nnn, i ≠ .call nnn) → SameStack s t) ∧
    (t.fault ≠ s.fault → (i = .ret ∧ s.sp.val = 0) ∨ ∃ nnn, i = .call nnn ∧ s.sp.val = 16)) ∧
  ∀ (c : Command) (s : State), ∃ r, perform c s = .next r ∧
    match c with
    | .idle => r.state = s
    | .reset => r.state = State.reset
    | .step => SameMemory s r.state ∧ r.state.mem = s.mem ∧ r.state.i = s.i ∧ r.state.keys = s.keys ∧
        r.state.dt = s.dt ∧ r.state.st = s.st
    | .tick => r.state = { s with dt := r.state.dt, st := r.state.st }
    | .load _ _ => r.state = { s with mem := r.state.mem }
    | .setKey _ _ => r.state = { s with keys := r.state.keys }

/-! ## The call stack -/

/-- The call stack is last in, first out over its whole depth (10_state.md section 6): pushes that fit all succeed and
pops give the addresses back in reverse; pushes that do not fit do not. -/
def Obligations.CallStackIsLifo : Prop :=
  ∀ (as : List Word) (s : State),
    (s.sp.val + as.length ≤ 16 → ∃ t u, pushAll as s = some t ∧ popAll as.length t = some (as.reverse, u) ∧ u.sp = s.sp) ∧
    (16 < s.sp.val + as.length → pushAll as s = none)

/-- A RET after a CALL, with the stack as the CALL left it, restores `pc` to the value it had after the CALL's own fetch
and `sp` to the value before the CALL (95_test_vectors.md S5). -/
def Obligations.RetReturnsToAfterTheCall : Prop :=
  ∀ (nnn : Addr12) (s : State), s.sp.val < 16 → ∃ t, exec (.call nnn) s = .next t ∧
    ∀ u : State, u.stack = t.stack → u.sp = t.sp → ∃ w, exec .ret u = .next w ∧ w.pc = s.pc ∧ w.sp = s.sp

/-! ## The Step -/

/-- R33. Fetch is big-endian at every address: the byte at the lower address is `op[15:8]` and holds digit1 and digit2,
the byte at the higher address is `op[7:0]`, holds digit3 and digit4, and is `nn`. -/
def Obligations.FetchIsBigEndian : Prop :=
  (∀ s : State, s.pc.toNat ≤ 4094 → ∃ lower higher op, readByte s s.pc.toNat = some lower ∧
    readByte s (s.pc.toNat + 1) = some higher ∧ fetchOpcode s = some op ∧
    op.toNat = 256 * lower.toNat + higher.toNat ∧
    (digit1 op).toNat = lower.toNat / 16 ∧ (fieldX op).toNat = lower.toNat % 16 ∧
    (fieldY op).toNat = higher.toNat / 16 ∧ (digit4 op).toNat = higher.toNat % 16 ∧ fieldNN op = higher) ∧
  joinBytes 0x60#8 0x05#8 = 0x6005#16

/-- A step runs the decoded instruction (40_step_cycle.md section 1): where no fault is latched, both bytes at `pc` are
in memory and their opcode decodes to `i`, step is `exec i` after Fetch's advance of `pc` by 2, which never overflows. -/
def Obligations.StepRunsTheDecodedInstruction : Prop :=
  ∀ (s : State) (lower higher : Byte) (i : Instr), s.fault = none → s.pc.toNat ≤ 4094 →
    readByte s s.pc.toNat = some lower → readByte s (s.pc.toNat + 1) = some higher →
    decode (joinBytes lower higher) = .ok i →
    step s = exec i s.advancePc ∧ s.advancePc.pc.toNat = s.pc.toNat + 2 ∧ OnlyPcMayChange s s.advancePc

/-- The `pc` a Step leaves (10_state.md section 4, the rows of its table for Steps that complete): no addition overflows. -/
def Obligations.PcAfterEachInstruction : Prop :=
  ∀ (s : State) (op : Opcode) (i : Instr), s.fault = none → s.pc.toNat ≤ 4094 → fetchOpcode s = some op →
    decode op = .ok i → ExecutesSafely i s → ∃ t, step s = .next t ∧ t.fault = none ∧ t.pc.toNat = pcAfter i s

/-- R77, what the three skips have in common. A Step from `p` that fetches a skip leaves `p + 4` when its condition holds
and `p + 2` otherwise; it raises no fault and writes no register, no flag and nothing else. The skipped two bytes are
neither read nor decoded: with any memory that agrees in the two bytes at `p` the Step does the same. -/
def Obligations.SkipsStepOverTwoUnreadBytes : Prop :=
  ∀ (s : State) (x y : RegNum) (nn : Byte) (i : Instr) (taken : Bool) (op : Opcode),
    (i, taken) ∈ [(Instr.skipEqImm x nn, decide (s.reg x = nn)), (.skipNeqImm x nn, decide (s.reg x ≠ nn)),
      (.skipEqReg x y, decide (s.reg x = s.reg y))] →
    s.fault = none → s.pc.toNat ≤ 4094 → fetchOpcode s = some op → decode op = .ok i →
    ∃ t, step s = .next t ∧ t.pc.toNat = (if taken then s.pc.toNat + 4 else s.pc.toNat + 2) ∧ OnlyPcMayChange s t ∧
      t.fault = none ∧
      ∀ m : Memory, readByte { s with mem := m } s.pc.toNat = readByte s s.pc.toNat →
        readByte { s with mem := m } (s.pc.toNat + 1) = readByte s (s.pc.toNat + 1) →
        step { s with mem := m } = .next { t with mem := m }

/-- A Fetch out of bounds. The latched record and the unchanged `pc` are the spec's decisions D5 to D7 (log 3, 17, 18);
the bound is C1 (log 28): for every `pc` of 4095 or more FETCH_BOUNDS is latched with that `pc` and opcode 0x0000, and
nothing else changes. -/
def Obligations.FetchOutOfBoundsLatchesFault : Prop :=
  ∀ s : State, s.fault = none → 4095 ≤ s.pc.toNat → ∃ t, step s = .next t ∧
    t.fault = some ⟨.fetchBounds, s.pc, 0x0000#16⟩ ∧ t.pc = s.pc ∧ SameRegs s t ∧ SameMemory s t ∧ SameStack s t ∧
    SameScreen s t ∧ t.i = s.i ∧ t.dt = s.dt ∧ t.st = s.st ∧ t.keys = s.keys

/-- An illegal opcode. The latched record and the advanced `pc` are the spec's decisions D5 to D7 (log 3, 17, 18):
UNHANDLED_INSTRUCTION is latched with the instruction's address and the opcode, `pc` is past it, and nothing else changes. -/
def Obligations.IllegalOpcodeLatchesFault : Prop :=
  ∀ (s : State) (op : Opcode), s.fault = none → s.pc.toNat ≤ 4094 → fetchOpcode s = some op →
    (∀ r ∈ opcodeTable, op &&& r.mask ≠ r.pattern) → ∃ t, step s = .next t ∧
    t.fault = some ⟨.unhandledInstruction, s.pc, op⟩ ∧ t.pc.toNat = s.pc.toNat + 2 ∧ SameRegs s t ∧ SameMemory s t ∧
    SameStack s t ∧ SameScreen s t ∧ t.i = s.i ∧ t.dt = s.dt ∧ t.st = s.st ∧ t.keys = s.keys

/-- The state a faulting Step leaves (60_exceptions.md section 3; decisions D5 to D7, log 3, 17, 18): which cause under
which condition, the address of the instruction, the opcode fetched, `pc`, and everything else unchanged. The causes
exclude each other. -/
def Obligations.FaultingStepIsPrecise : Prop :=
  ∀ (s t : State) (f : FaultRecord), s.fault = none → step s = .next t → t.fault = some f →
    f.addr = s.pc ∧ SameRegs s t ∧ SameMemory s t ∧ SameStack s t ∧ SameScreen s t ∧
    t.i = s.i ∧ t.dt = s.dt ∧ t.st = s.st ∧ t.keys = s.keys ∧
    match f.cause with
    | .fetchBounds => 4095 ≤ s.pc.toNat ∧ f.opcode = 0x0000#16 ∧ t.pc = s.pc
    | .unhandledInstruction => fetchOpcode s = some f.opcode ∧ t.pc.toNat = s.pc.toNat + 2 ∧
        decode f.opcode = .error (.unhandledInstruction f.opcode)
    | .stackOverflow => fetchOpcode s = some f.opcode ∧ t.pc.toNat = s.pc.toNat + 2 ∧ s.sp.val = 16 ∧
        f.opcode &&& 0xF000#16 = 0x2000#16
    | .stackUnderflow => fetchOpcode s = some f.opcode ∧ t.pc.toNat = s.pc.toNat + 2 ∧ s.sp.val = 0 ∧
        f.opcode = 0x00EE#16

/-- A Step while halted (40_step_cycle.md section 4; decision D5, log 3, 8) changes nothing and reports STEP_REFUSED. -/
def Obligations.HaltedStepIsRefused : Prop :=
  ∀ s : State, s.fault ≠ none → step s = .next s ∧ perform .step s = .next ⟨s, .stepRefused, false⟩

/-- The `result` of a STEP (40_step_cycle.md section 4; decision D5, log 3): refused exactly while halted, ok exactly
when the Step is safe (no fault, fetch in bounds, defined opcode, stack bounds), fault otherwise. -/
def Obligations.StepResultIsExact : Prop :=
  ∀ s : State, ∃ r, perform .step s = .next r ∧ r.audioCue = false ∧
    (r.result = .stepRefused ↔ s.fault ≠ none) ∧ (r.result = .stepOk ↔ StepsSafely s) ∧
    (r.result = .stepFault ↔ s.fault = none ∧ r.state.fault ≠ none)

/-- Every command, STEP among them, answers a next state from every state (50_host_interface.md section 1: each is a
terminating operation): the model never stops with a Fault or a Refusal. -/
def Obligations.EveryCommandCompletes : Prop :=
  (∀ s : State, ∃ t, step s = .next t) ∧ ∀ (c : Command) (s : State), ∃ r, perform c s = .next r

/-- The idle loop (50_host_interface.md section 3): a Step of a JMP to its own address changes no state. -/
def Obligations.IdleLoopChangesNothing : Prop := ∀ s : State, IdleLoop s → step s = .next s

/-- A Step reads neither the key flags, `I` nor the timers, and does not change them (10_state.md sections 5, 7 and 8,
derived there): two states that differ only in these step to states that differ only in these. -/
def Obligations.StepIgnoresKeysIndexAndTimers : Prop :=
  ∀ (s : State) (ks : Vector Bool 16) (j : Word) (d e : Byte) (t : State), step s = .next t →
    step { s with keys := ks, i := j, dt := d, st := e } = .next { t with keys := ks, i := j, dt := d, st := e }

/-- A Step sees of memory only the two bytes at `pc` (20_memory.md section 6): whatever the rest of memory holds, the
font among it, the Step does the same (70_reset_and_hazards.md section 1, derived there). -/
def Obligations.StepSeesOnlyItsTwoBytes : Prop :=
  ∀ (s : State) (m : Memory) (t : State),
    readByte { s with mem := m } s.pc.toNat = readByte s s.pc.toNat →
    readByte { s with mem := m } (s.pc.toNat + 1) = readByte s (s.pc.toNat + 1) →
    step s = .next t → step { s with mem := m } = .next { t with mem := m }

/-! ## The host's commands -/

/-- What RESET leaves from any state (70_reset_and_hazards.md section 1); FONT is open (log 1), the fault record is
the spec's decision D5 (log 3). -/
def Obligations.ResetLeavesTheResetValues : Prop :=
  ∀ s : State, ∃ r, perform .reset s = .next r ∧ r.state.pc = 0x0200#16 ∧
    (∀ a (h : a < 80), readByte r.state a = some Config.font[a]) ∧
    (∀ a, 80 ≤ a → a ≤ 4095 → readByte r.state a = some 0x00#8) ∧
    (∀ k, r.state.pixel k = false) ∧ (∀ x, r.state.reg x = 0x00#8) ∧ r.state.i = 0x0000#16 ∧
    (∀ k (h : k < 16), r.state.stack[k] = 0x0000#16) ∧ r.state.sp.val = 0 ∧
    (∀ k (h : k < 16), r.state.keys[k] = false) ∧ r.state.dt = 0x00#8 ∧ r.state.st = 0x00#8 ∧ r.state.fault = none

/-- TICK (60_exceptions.md section 7): performed, each timer above 0 counts down by 1 and at 0 stays, and the cue is
given exactly when ST was 1; while a fault is latched it is held, with no cue (decision D8, log 19). Nothing else
changes. -/
def Obligations.TickCountsDownAndCues : Prop :=
  ∀ s : State, ∃ r, perform .tick s = .next r ∧
    (s.fault = none → r.state.dt.toNat = s.dt.toNat - 1 ∧ r.state.st.toNat = s.st.toNat - 1 ∧
      (r.audioCue = true ↔ s.st.toNat = 1)) ∧
    (s.fault ≠ none → r.state.dt = s.dt ∧ r.state.st = s.st ∧ r.audioCue = false) ∧
    r.state.pc = s.pc ∧ r.state.i = s.i ∧ r.state.keys = s.keys ∧ r.state.fault = s.fault ∧
    SameRegs s r.state ∧ SameMemory s r.state ∧ SameStack s r.state ∧ SameScreen s r.state

/-- A timer reaches 0 after exactly as many TICKs as its value and stays there (60_exceptions.md section 7). -/
def Obligations.TimersReachZeroAndStay : Prop :=
  ∀ (n : Nat) (s : State), s.fault = none → ∃ t, performAll (List.replicate n .tick) s = .next t ∧
    t.dt.toNat = s.dt.toNat - n ∧ t.st.toNat = s.st.toNat - n

/-- LOAD (50_host_interface.md section 1; the gate is the spec's decision D3, log 15, and that a fault does not hold it
D8, log 19): at 0x200 or above the one byte reads as written, below nothing changes; every other byte and all other
state is unchanged. -/
def Obligations.LoadWritesOneByte : Prop :=
  ∀ (s : State) (addr : Addr12) (data : Byte), Memory.wf s.mem → ∃ r, perform (.load addr data) s = .next r ∧
    (0x200 ≤ addr.toNat → readByte r.state addr.toNat = some data) ∧ (addr.toNat < 0x200 → r.state = s) ∧
    (∀ a, a ≠ addr.toNat → readByte r.state a = readByte s a) ∧ r.state = { s with mem := r.state.mem }

/-- SETKEY (50_host_interface.md section 1; that a fault does not hold it is decision D8, log 19) writes one flag and
no other state. -/
def Obligations.SetKeyWritesOneFlag : Prop :=
  ∀ (s : State) (k : BitVec 4) (b : Bool), ∃ r, perform (.setKey k b) s = .next r ∧
    (∀ j (h : j < 16), r.state.keys[j] = if j = k.toNat then b else s.keys[j]) ∧
    r.state = { s with keys := r.state.keys }

/-- A word the host LOADs at `pc` is the one the very next STEP runs (20_memory.md section 10; that LOAD may come
between Steps is decision D4, log 16). -/
def Obligations.LoadedWordIsFetchedNext : Prop :=
  ∀ (s : State) (lower higher : Byte) (i : Instr), Memory.wf s.mem → s.fault = none → 0x200 ≤ s.pc.toNat →
    s.pc.toNat ≤ 4094 → decode (joinBytes lower higher) = .ok i →
    ∃ t, performAll [.load (BitVec.ofNat 12 s.pc.toNat) lower, .load (BitVec.ofNat 12 (s.pc.toNat + 1)) higher] s = .next t ∧
      t.pc = s.pc ∧ step t = exec i t.advancePc

/-- No command but RESET changes a byte below 0x200, so the font stays as it is (20_memory.md sections 2 and 7; the gate
is decision D3, log 15). -/
def Obligations.LowMemoryChangesOnlyByReset : Prop :=
  ∀ (c : Command) (s : State) (r : Response) (a : Nat), c ≠ .reset → perform c s = .next r → a < 0x200 →
    readByte r.state a = readByte s a

/-- The screen changes only in a CLS Step or a RESET (50_host_interface.md section 3). -/
def Obligations.ScreenChangesOnlyByClsOrReset : Prop :=
  ∀ (c : Command) (s : State) (r : Response), perform c s = .next r → r.state.screen ≠ s.screen →
    c = .reset ∨ (c = .step ∧ fetchOpcode s = some 0x00E0#16)

/-- The outputs (50_host_interface.md section 2; names and codes are decisions D6 and D11, log 17, 22). `fault_valid` and
a cause code other than 0 are given exactly while a record is latched; the code is 1 to 4 by the record's cause, as the
table of 60_exceptions.md section 1 says, and 1 exactly for the unhandled class. `fault_addr` and `fault_opcode` are the
record's, and 0 where none is latched; the record's may be 0 as well (FETCH_BOUNDS has opcode 0x0000). `sound_active` is
the level `ST != 0`. -/
def Obligations.OutputsReportTheState : Prop :=
  ∀ r : Response,
    ((outputs r).faultValid = true ↔ r.state.fault ≠ none) ∧ ((outputs r).faultCause = 0#3 ↔ r.state.fault = none) ∧
    (outputs r).faultCause.toNat ≤ 4 ∧
    (r.state.fault = none → (outputs r).faultAddr = 0#16 ∧ (outputs r).faultOpcode = 0#16) ∧
    (∀ f, r.state.fault = some f → (outputs r).faultAddr = f.addr ∧ (outputs r).faultOpcode = f.opcode ∧
      ((outputs r).faultCause = 1#3 ↔ f.cause.classOf = .unhandledInstructionFault) ∧
      ((outputs r).faultCause = 1#3 ↔ f.cause = .unhandledInstruction) ∧
      ((outputs r).faultCause = 2#3 ↔ f.cause = .fetchBounds) ∧
      ((outputs r).faultCause = 3#3 ↔ f.cause = .stackOverflow) ∧
      ((outputs r).faultCause = 4#3 ↔ f.cause = .stackUnderflow)) ∧
    ((outputs r).soundActive = true ↔ 0 < r.state.st.toNat) ∧ (outputs r).screenOut = r.state.screen ∧
    (outputs r).result = r.result ∧ (outputs r).audioCue = r.audioCue

/-! ## Invariants -/

/-- The state after Reset meets the invariants of 70_reset_and_hazards.md section 2, which the spec derives, and the
canonical form of memory, which is the model's own (log 2, DEDUCED). -/
def Obligations.ResetMeetsTheInvariants : Prop := State.reset.Inv

/-- Every step from a state that meets the invariants leaves one that meets them. They are those of
70_reset_and_hazards.md section 2, which the spec derives, and the canonical form of memory, which is the model's own
(log 2, DEDUCED). -/
def Obligations.EveryStepKeepsTheInvariants : Prop := ∀ s t : State, s.Inv → step s = .next t → t.Inv

/-- Every command from a state that meets the invariants leaves one that meets them (70_reset_and_hazards.md section 2).
The bytes below 0x200 rest on the spec's decision D3 (log 15), the zero timers, `I` and pixels on D12 (log 23), and the
canonical form of memory is the model's own (log 2, DEDUCED). -/
def Obligations.EveryCommandKeepsTheInvariants : Prop :=
  ∀ (c : Command) (s : State) (r : Response), s.Inv → perform c s = .next r → r.state.Inv

/-- Every state that any sequence of commands leads to from Reset meets the invariants (70_reset_and_hazards.md
section 2). The bytes below 0x200 rest on the spec's decision D3 (log 15), the zero timers, `I` and pixels on D12 (log 23),
that a run begins in the state after Reset on D20 (log 27), and the canonical form of memory is the model's own (log 2,
DEDUCED). -/
def Obligations.ReachableStatesMeetTheInvariants : Prop := ∀ s : State, Reachable s → s.Inv

/-- The canonical form of memory (log 2) is kept by every command, from every state that has it. -/
def Obligations.EveryCommandKeepsMemoryCanonical : Prop :=
  ∀ (c : Command) (s : State) (r : Response), Memory.wf s.mem → perform c s = .next r → Memory.wf r.state.mem

/-- A latched fault stays, with the same record, under every sequence of commands without RESET, and with it everything
but memory and keys; a RESET clears it (60_exceptions.md section 4; decisions D5 and D8, log 3, 19). -/
def Obligations.FaultStaysUntilReset : Prop :=
  (∀ (cs : List Command) (s : State) (f : FaultRecord), s.fault = some f → .reset ∉ cs →
    ∃ t, performAll cs s = .next t ∧ t = { s with mem := t.mem, keys := t.keys }) ∧
  ∀ (cs : List Command) (s : State), ∃ t, performAll (cs ++ [.reset]) s = .next t ∧ t.fault = none
end

