-- ==== Sys2Proof/Laws/Memory.lean ====
section
/-! SUPPORT. The laws of memory: read after write, and that a write keeps the canonical form. -/

namespace Sys2Proof.Machine

/-- The byte just stored is read back. -/
theorem memLookup_memStore_same (m : Memory) (a : Nat) (x : Byte) (hm : m.Pairwise (fun p q => p.1 < q.1)) :
    memLookup (memStore m a x) a = x := by
  induction m with
  | nil => simp only [memStore]; split <;> simp_all [memLookup]
  | cons p m ih =>
    obtain ⟨b, w⟩ := p
    obtain ⟨hb, hm'⟩ := List.pairwise_cons.1 hm
    have unlisted : ∀ n : Memory, (∀ q ∈ n, a < q.1) → memLookup n a = resetByte a := by
      intro n hn
      induction n with
      | nil => rfl
      | cons q n ihn =>
        have hq := hn q (by simp)
        have hne : q.1 ≠ a := by omega
        simp only [memLookup, hne, if_false]
        exact ihn fun r hr => hn r (by simp [hr])
    simp only [memStore]
    split
    · next hab =>
      split
      · next hx =>
        rw [hx]
        refine unlisted _ fun q hq => ?_
        rcases List.mem_cons.1 hq with rfl | hq
        · exact hab
        · exact Nat.lt_trans hab (hb q hq)
      · simp [memLookup]
    · split
      · next hab =>
        subst hab
        split
        · next hx => rw [hx]; exact unlisted _ hb
        · simp [memLookup]
      · next hlt hne =>
        have : b ≠ a := fun e => hne e.symm
        simp [memLookup, this, ih hm']

/-- A store leaves every other address as it was. -/
theorem memLookup_memStore_other (m : Memory) (a c : Nat) (x : Byte) (h : c ≠ a) :
    memLookup (memStore m a x) c = memLookup m c := by
  have hac : ¬ a = c := fun e => h e.symm
  induction m with
  | nil => simp only [memStore]; split <;> simp [memLookup, hac]
  | cons p m ih =>
    obtain ⟨b, w⟩ := p
    simp only [memStore]
    split
    · split <;> simp [memLookup, hac]
    · split
      · next hab =>
        subst hab
        split <;> simp [memLookup, hac]
      · simp [memLookup, ih]

/-- Every entry of a memory after a store is the stored byte, where it differs from the reset contents, or an old entry. -/
theorem mem_memStore {m : Memory} {a : Nat} {x : Byte} {p : Host.Cell} (hp : p ∈ memStore m a x) :
    (p = (a, x) ∧ x ≠ resetByte a) ∨ p ∈ m := by
  induction m with
  | nil =>
    simp only [memStore] at hp
    split at hp
    · simp at hp
    · next hx => exact .inl ⟨by simpa using hp, hx⟩
  | cons q m ih =>
    obtain ⟨b, w⟩ := q
    simp only [memStore] at hp
    split at hp
    · split at hp
      · exact .inr hp
      · next hx =>
        rcases List.mem_cons.1 hp with rfl | hp
        · exact .inl ⟨rfl, hx⟩
        · exact .inr hp
    · split at hp
      · split at hp
        · exact .inr (List.mem_cons_of_mem _ hp)
        · next hx =>
          rcases List.mem_cons.1 hp with rfl | hp
          · exact .inl ⟨rfl, hx⟩
          · exact .inr (List.mem_cons_of_mem _ hp)
      · rcases List.mem_cons.1 hp with rfl | hp
        · exact .inr (by simp)
        · rcases ih hp with h | h
          · exact .inl h
          · exact .inr (List.mem_cons_of_mem _ h)

/-- Every memory operation keeps the canonical form: the store inside the address space does. -/
theorem memStore_wf {m : Memory} {a : Nat} (x : Byte) (ha : a < Config.memSize) (hm : Memory.wf m) :
    Memory.wf (memStore m a x) := by
  obtain ⟨hs, hv⟩ := hm
  refine ⟨?_, fun p hp => ?_⟩
  · clear hv
    induction m with
    | nil => simp only [memStore]; split <;> simp
    | cons q m ih =>
      obtain ⟨b, w⟩ := q
      obtain ⟨hb, hm'⟩ := List.pairwise_cons.1 hs
      simp only [memStore]
      split
      · next hab =>
        split
        · exact hs
        · refine List.pairwise_cons.2 ⟨fun q hq => ?_, hs⟩
          rcases List.mem_cons.1 hq with rfl | hq
          · exact hab
          · exact Nat.lt_trans hab (hb q hq)
      · split
        · next hab =>
          subst hab
          split
          · exact hm'
          · exact List.pairwise_cons.2 ⟨hb, hm'⟩
        · next hlt hne =>
          refine List.pairwise_cons.2 ⟨fun q hq => ?_, ih hm'⟩
          rcases mem_memStore hq with ⟨rfl, -⟩ | hq
          · show b < a
            omega
          · exact hb q hq
  · rcases mem_memStore hp with ⟨rfl, hx⟩ | hp
    · exact ⟨ha, hx⟩
    · exact hv p hp

/-- The memory after Reset has the canonical form. -/
theorem reset_mem_wf : Memory.wf State.reset.mem := by
  simp [State.reset, Memory.wf]

/-- A read answers none exactly outside the address space (R31). -/
theorem readByte_eq_none_iff (s : State) (a : Nat) : readByte s a = none ↔ 4096 ≤ a := by
  unfold readByte
  split
  · next h => exact ⟨fun e => by simp at e, fun e => absurd h (Nat.not_lt.2 e)⟩
  · next h => exact ⟨fun _ => Nat.le_of_not_lt h, fun _ => rfl⟩

/-- A read inside the address space (R31). -/
theorem readByte_eq_some (s : State) {a : Nat} (h : a < 4096) : readByte s a = some (memLookup s.mem a) :=
  if_pos h

/-- A read depends on memory only. -/
theorem readByte_congr {s t : State} (h : t.mem = s.mem) (a : Nat) : readByte t a = readByte s a := by
  simp [readByte, h]

/-- What a write is (R32): it answers inside the address space, and changes memory only. -/
theorem writeByte_eq_some {s t : State} {a : Nat} {x : Byte} (h : writeByte s a x = some t) :
    a < 4096 ∧ t = { s with mem := memStore s.mem a x } := by
  unfold writeByte at h
  split at h
  · next ha => exact ⟨ha, by simpa using h.symm⟩
  · simp at h

end Sys2Proof.Machine
end

