-- ==== Sys2Proof/Laws/State.lean ====
section
/-! SUPPORT. One lemma per field per update, so that no proof unfolds a record update. -/

namespace Sys2Proof.Machine

@[simp] theorem State.setPc_pc (s : State) (a : Word) : (s.setPc a).pc = a := rfl
@[simp] theorem State.setPc_mem (s : State) (a : Word) : (s.setPc a).mem = s.mem := rfl
@[simp] theorem State.setPc_screen (s : State) (a : Word) : (s.setPc a).screen = s.screen := rfl
@[simp] theorem State.setPc_v (s : State) (a : Word) : (s.setPc a).v = s.v := rfl
@[simp] theorem State.setPc_i (s : State) (a : Word) : (s.setPc a).i = s.i := rfl
@[simp] theorem State.setPc_stack (s : State) (a : Word) : (s.setPc a).stack = s.stack := rfl
@[simp] theorem State.setPc_sp (s : State) (a : Word) : (s.setPc a).sp = s.sp := rfl
@[simp] theorem State.setPc_keys (s : State) (a : Word) : (s.setPc a).keys = s.keys := rfl
@[simp] theorem State.setPc_dt (s : State) (a : Word) : (s.setPc a).dt = s.dt := rfl
@[simp] theorem State.setPc_st (s : State) (a : Word) : (s.setPc a).st = s.st := rfl
@[simp] theorem State.setPc_fault (s : State) (a : Word) : (s.setPc a).fault = s.fault := rfl

@[simp] theorem State.advancePc_pc (s : State) : (s.advancePc).pc = s.pc + 2#16 := rfl
@[simp] theorem State.advancePc_mem (s : State) : (s.advancePc).mem = s.mem := rfl
@[simp] theorem State.advancePc_screen (s : State) : (s.advancePc).screen = s.screen := rfl
@[simp] theorem State.advancePc_v (s : State) : (s.advancePc).v = s.v := rfl
@[simp] theorem State.advancePc_i (s : State) : (s.advancePc).i = s.i := rfl
@[simp] theorem State.advancePc_stack (s : State) : (s.advancePc).stack = s.stack := rfl
@[simp] theorem State.advancePc_sp (s : State) : (s.advancePc).sp = s.sp := rfl
@[simp] theorem State.advancePc_keys (s : State) : (s.advancePc).keys = s.keys := rfl
@[simp] theorem State.advancePc_dt (s : State) : (s.advancePc).dt = s.dt := rfl
@[simp] theorem State.advancePc_st (s : State) : (s.advancePc).st = s.st := rfl
@[simp] theorem State.advancePc_fault (s : State) : (s.advancePc).fault = s.fault := rfl

@[simp] theorem State.setReg_pc (s : State) (x : RegNum) (b : Byte) : (s.setReg x b).pc = s.pc := rfl
@[simp] theorem State.setReg_mem (s : State) (x : RegNum) (b : Byte) : (s.setReg x b).mem = s.mem := rfl
@[simp] theorem State.setReg_screen (s : State) (x : RegNum) (b : Byte) : (s.setReg x b).screen = s.screen := rfl
@[simp] theorem State.setReg_v (s : State) (x : RegNum) (b : Byte) : (s.setReg x b).v = s.v.set x.toNat b x.isLt := rfl
@[simp] theorem State.setReg_i (s : State) (x : RegNum) (b : Byte) : (s.setReg x b).i = s.i := rfl
@[simp] theorem State.setReg_stack (s : State) (x : RegNum) (b : Byte) : (s.setReg x b).stack = s.stack := rfl
@[simp] theorem State.setReg_sp (s : State) (x : RegNum) (b : Byte) : (s.setReg x b).sp = s.sp := rfl
@[simp] theorem State.setReg_keys (s : State) (x : RegNum) (b : Byte) : (s.setReg x b).keys = s.keys := rfl
@[simp] theorem State.setReg_dt (s : State) (x : RegNum) (b : Byte) : (s.setReg x b).dt = s.dt := rfl
@[simp] theorem State.setReg_st (s : State) (x : RegNum) (b : Byte) : (s.setReg x b).st = s.st := rfl
@[simp] theorem State.setReg_fault (s : State) (x : RegNum) (b : Byte) : (s.setReg x b).fault = s.fault := rfl

@[simp] theorem State.clearScreen_pc (s : State) : (s.clearScreen).pc = s.pc := rfl
@[simp] theorem State.clearScreen_mem (s : State) : (s.clearScreen).mem = s.mem := rfl
@[simp] theorem State.clearScreen_screen (s : State) : (s.clearScreen).screen = BitVec.zero 2048 := rfl
@[simp] theorem State.clearScreen_v (s : State) : (s.clearScreen).v = s.v := rfl
@[simp] theorem State.clearScreen_i (s : State) : (s.clearScreen).i = s.i := rfl
@[simp] theorem State.clearScreen_stack (s : State) : (s.clearScreen).stack = s.stack := rfl
@[simp] theorem State.clearScreen_sp (s : State) : (s.clearScreen).sp = s.sp := rfl
@[simp] theorem State.clearScreen_keys (s : State) : (s.clearScreen).keys = s.keys := rfl
@[simp] theorem State.clearScreen_dt (s : State) : (s.clearScreen).dt = s.dt := rfl
@[simp] theorem State.clearScreen_st (s : State) : (s.clearScreen).st = s.st := rfl
@[simp] theorem State.clearScreen_fault (s : State) : (s.clearScreen).fault = s.fault := rfl

@[simp] theorem State.setKeyFlag_pc (s : State) (k : BitVec 4) (b : Bool) : (s.setKeyFlag k b).pc = s.pc := rfl
@[simp] theorem State.setKeyFlag_mem (s : State) (k : BitVec 4) (b : Bool) : (s.setKeyFlag k b).mem = s.mem := rfl
@[simp] theorem State.setKeyFlag_screen (s : State) (k : BitVec 4) (b : Bool) : (s.setKeyFlag k b).screen = s.screen := rfl
@[simp] theorem State.setKeyFlag_v (s : State) (k : BitVec 4) (b : Bool) : (s.setKeyFlag k b).v = s.v := rfl
@[simp] theorem State.setKeyFlag_i (s : State) (k : BitVec 4) (b : Bool) : (s.setKeyFlag k b).i = s.i := rfl
@[simp] theorem State.setKeyFlag_stack (s : State) (k : BitVec 4) (b : Bool) : (s.setKeyFlag k b).stack = s.stack := rfl
@[simp] theorem State.setKeyFlag_sp (s : State) (k : BitVec 4) (b : Bool) : (s.setKeyFlag k b).sp = s.sp := rfl
@[simp] theorem State.setKeyFlag_keys (s : State) (k : BitVec 4) (b : Bool) : (s.setKeyFlag k b).keys = s.keys.set k.toNat b k.isLt := rfl
@[simp] theorem State.setKeyFlag_dt (s : State) (k : BitVec 4) (b : Bool) : (s.setKeyFlag k b).dt = s.dt := rfl
@[simp] theorem State.setKeyFlag_st (s : State) (k : BitVec 4) (b : Bool) : (s.setKeyFlag k b).st = s.st := rfl
@[simp] theorem State.setKeyFlag_fault (s : State) (k : BitVec 4) (b : Bool) : (s.setKeyFlag k b).fault = s.fault := rfl

@[simp] theorem raiseFault_pc (s : State) (c : FaultCause) (a : Word) (op : Opcode) : (raiseFault c a op s).pc = s.pc := rfl
@[simp] theorem raiseFault_mem (s : State) (c : FaultCause) (a : Word) (op : Opcode) : (raiseFault c a op s).mem = s.mem := rfl
@[simp] theorem raiseFault_screen (s : State) (c : FaultCause) (a : Word) (op : Opcode) : (raiseFault c a op s).screen = s.screen := rfl
@[simp] theorem raiseFault_v (s : State) (c : FaultCause) (a : Word) (op : Opcode) : (raiseFault c a op s).v = s.v := rfl
@[simp] theorem raiseFault_i (s : State) (c : FaultCause) (a : Word) (op : Opcode) : (raiseFault c a op s).i = s.i := rfl
@[simp] theorem raiseFault_stack (s : State) (c : FaultCause) (a : Word) (op : Opcode) : (raiseFault c a op s).stack = s.stack := rfl
@[simp] theorem raiseFault_sp (s : State) (c : FaultCause) (a : Word) (op : Opcode) : (raiseFault c a op s).sp = s.sp := rfl
@[simp] theorem raiseFault_keys (s : State) (c : FaultCause) (a : Word) (op : Opcode) : (raiseFault c a op s).keys = s.keys := rfl
@[simp] theorem raiseFault_dt (s : State) (c : FaultCause) (a : Word) (op : Opcode) : (raiseFault c a op s).dt = s.dt := rfl
@[simp] theorem raiseFault_st (s : State) (c : FaultCause) (a : Word) (op : Opcode) : (raiseFault c a op s).st = s.st := rfl
@[simp] theorem raiseFault_fault (s : State) (c : FaultCause) (a : Word) (op : Opcode) : (raiseFault c a op s).fault = some ⟨c, a, op⟩ := rfl

/-! ## Registers -/

/-- Reading the register just written gives the value written. -/
@[simp] theorem State.reg_setReg_same (s : State) (x : RegNum) (b : Byte) : (s.setReg x b).reg x = b := by
  simp [State.reg]

/-- Writing one register leaves every other as it was. -/
theorem State.reg_setReg_other (s : State) (x k : RegNum) (b : Byte) (h : k ≠ x) :
    (s.setReg x b).reg k = s.reg k := by
  have hne : x.toNat ≠ k.toNat := fun e => h (BitVec.eq_of_toNat_eq e.symm)
  simp [State.reg, hne]

@[simp] theorem State.reg_setPc (s : State) (a : Word) (x : RegNum) : (s.setPc a).reg x = s.reg x := rfl
@[simp] theorem State.reg_advancePc (s : State) (x : RegNum) : s.advancePc.reg x = s.reg x := rfl
@[simp] theorem State.reg_clearScreen (s : State) (x : RegNum) : s.clearScreen.reg x = s.reg x := rfl
@[simp] theorem reg_raiseFault (s : State) (c : FaultCause) (a : Word) (op : Opcode) (x : RegNum) :
    (raiseFault c a op s).reg x = s.reg x := rfl

/-- CLS leaves every pixel false. -/
@[simp] theorem State.pixel_clearScreen (s : State) (k : Fin 2048) : s.clearScreen.pixel k = false := by
  simp [State.pixel]

/-- The core is halted exactly when a fault record is latched. -/
theorem State.halted_eq_false_iff (s : State) : s.halted = false ↔ s.fault = none := by
  simp [State.halted]

theorem State.halted_eq_true_iff (s : State) : s.halted = true ↔ s.fault ≠ none := by
  simp [State.halted, Option.isSome_iff_ne_none]

end Sys2Proof.Machine
end

