-- ==== Sys2Proof/Laws/Ops.lean ====
section
/-! SUPPORT. One lemma per shared operation: everything it can do. -/

namespace Sys2Proof.Machine

/-! ## Call stack -/

/-- What a push that answers has done (R72). -/
theorem push_eq_some {s t : State} {a : Word} (h : push s a = some t) :
    ∃ hs : s.sp.val < 16, t = { s with stack := s.stack.set s.sp.val a hs, sp := ⟨s.sp.val + 1, by omega⟩ } := by
  unfold push at h
  split at h
  · next hs => exact ⟨hs, by simpa using h.symm⟩
  · simp at h

/-- A push is refused exactly on a full stack (R72). -/
theorem push_eq_none_iff (s : State) (a : Word) : push s a = none ↔ s.sp.val = 16 := by
  unfold push
  split
  · next h => simp only [reduceCtorEq, false_iff]; omega
  · next h => simp only [true_iff]; omega

/-- What a pop that answers has done (R73). -/
theorem pop_eq_some {s t : State} {a : Word} (h : pop s = some (a, t)) :
    ∃ hs : 0 < s.sp.val, a = s.stack[s.sp.val - 1]'(by have := s.sp.isLt; omega) ∧
      t = { s with sp := ⟨s.sp.val - 1, by have := s.sp.isLt; omega⟩ } := by
  unfold pop at h
  split at h
  · simp at h
  · next hs =>
    obtain ⟨rfl, rfl⟩ := Prod.mk.inj (Option.some.inj h)
    exact ⟨Nat.pos_of_ne_zero hs, rfl, rfl⟩

/-- A pop is refused exactly on an empty stack (R73). -/
theorem pop_eq_none_iff (s : State) : pop s = none ↔ s.sp.val = 0 := by
  unfold pop
  split
  · next h => simp [h]
  · next h => simp [h]

/-! ## Operands and timers -/

/-- A JMP or CALL target is its operand, zero-extended (R47). -/
theorem targetOf_toNat (nnn : Addr12) : (targetOf nnn).toNat = nnn.toNat := by
  simp only [targetOf, BitVec.truncate_eq_setWidth, BitVec.toNat_setWidth]
  omega

/-- A count down is subtraction that stops at 0 (R112). -/
theorem countDown_toNat (t : Byte) : (countDown t).toNat = t.toNat - 1 := by
  unfold countDown
  split
  · next h =>
    have h' : 0 < t.toNat := h
    rw [BitVec.toNat_sub_of_le (show 1 ≤ t.toNat by omega)]
    rfl
  · next h =>
    have h' : t.toNat = 0 := by simpa [BitVec.lt_def] using h
    omega

/-! ## Skips -/

/-- A skip changes nothing but `pc` (R77). -/
theorem skipIf_eq (c : Bool) (s : State) : skipIf c s = s.setPc (if c then s.pc + 2#16 else s.pc) := by
  cases c <;> rfl

/-! ## Fetch -/

/-- A Fetch in bounds reads the two bytes at `pc` (R33, R34). -/
theorem fetchOpcode_eq_some (s : State) (h : s.pc.toNat ≤ 4094) :
    fetchOpcode s = some (joinBytes (memLookup s.mem s.pc.toNat) (memLookup s.mem (s.pc.toNat + 1))) := by
  simp [fetchOpcode, readByte_eq_some s (show s.pc.toNat < 4096 by omega),
    readByte_eq_some s (show s.pc.toNat + 1 < 4096 by omega)]

/-- The bound of a Fetch (R34). -/
theorem fetchInBounds_iff (s : State) : fetchInBounds s = true ↔ s.pc.toNat ≤ 4094 := by
  rw [fetchInBounds, decide_eq_true_iff]
  omega

/-- A Fetch in bounds never overflows `pc` (R15). -/
theorem advancePc_toNat (s : State) (h : s.pc.toNat ≤ 4094) : s.advancePc.pc.toNat = s.pc.toNat + 2 := by
  simp [BitVec.toNat_add]; omega

/-- While an instruction executes, its address is `pc - 2` (R13, log 4). -/
theorem instrAddr_advancePc (s : State) : s.advancePc.instrAddr = s.pc := by
  simp [State.instrAddr]

/-! ## LOAD -/

/-- What a LOAD can do (R92): nothing below 0x200, else store one byte; it never meets a missing address. -/
theorem loadByte_cases (s : State) (addr : Addr12) (data : Byte) :
    (addr.toNat < 0x200 ∧ loadByte s addr data = some s) ∨
    (0x200 ≤ addr.toNat ∧ loadByte s addr data = some { s with mem := memStore s.mem addr.toNat data }) := by
  unfold loadByte
  split
  · next h => exact .inr ⟨h, if_pos addr.isLt⟩
  · next h => exact .inl ⟨Nat.lt_of_not_le h, rfl⟩

end Sys2Proof.Machine
end

