-- ==== Sys2Proof/Laws/Exec.lean ====
section
/-! SUPPORT. Everything a step can do, said once: the meaning of each instruction as an equation, and the case analysis
of a step. -/

namespace Sys2Proof.Machine

/-- RET with a held address (R74). -/
theorem execRet_of_held (s : State) (h : 0 < s.sp.val) :
    execRet s = .next ({ s with sp := ⟨s.sp.val - 1, by have := s.sp.isLt; omega⟩ }.setPc
      (s.stack[s.sp.val - 1]'(by have := s.sp.isLt; omega))) := by
  unfold execRet
  cases hp : pop s with
  | none => exact absurd ((pop_eq_none_iff s).1 hp) (by omega)
  | some p =>
    obtain ⟨a, t⟩ := p
    obtain ⟨_, rfl, rfl⟩ := pop_eq_some hp
    rfl

/-- RET on an empty stack (R74, R106). -/
theorem execRet_of_empty (s : State) (h : s.sp.val = 0) :
    execRet s = .next (raiseFault .stackUnderflow s.instrAddr 0x00EE#16 s) := by
  unfold execRet
  rw [(pop_eq_none_iff s).2 h]
  rfl

/-- CALL with a free slot (R76). -/
theorem execCall_of_free (nnn : Addr12) (s : State) (h : s.sp.val < 16) :
    execCall nnn s = .next ({ s with stack := s.stack.set s.sp.val s.pc h, sp := ⟨s.sp.val + 1, by omega⟩ }.setPc
      (targetOf nnn)) := by
  unfold execCall
  cases hp : push s s.pc with
  | none => exact absurd ((push_eq_none_iff s s.pc).1 hp) (by omega)
  | some t =>
    obtain ⟨_, rfl⟩ := push_eq_some hp
    rfl

/-- CALL on a full stack (R76, R106). -/
theorem execCall_of_full (nnn : Addr12) (s : State) (h : s.sp.val = 16) :
    execCall nnn s = .next (raiseFault .stackOverflow s.instrAddr (encode (.call nnn)) s) := by
  unfold execCall
  rw [(push_eq_none_iff s s.pc).2 h]

/-- What instruction `i` may do to a state `s`: the state it leaves. -/
inductive Effect (i : Instr) (s : State) : State → Prop where
  | unchanged (hi : i = .nop) : Effect i s s
  | cleared (hi : i = .cls) : Effect i s s.clearScreen
  | jumped (a : Word) (hi : writesPc i = true) (ha : a = s.pc ∨ a = s.pc + 2#16 ∨ ∃ nnn, a = targetOf nnn) : Effect i s (s.setPc a)
  | wrote (x : RegNum) (b : Byte) (hi : destination i = some x) : Effect i s (s.setReg x b)
  | popped (hi : i = .ret) (h : 0 < s.sp.val) :
      Effect i s ({ s with sp := ⟨s.sp.val - 1, by have := s.sp.isLt; omega⟩ }.setPc
        (s.stack[s.sp.val - 1]'(by have := s.sp.isLt; omega)))
  | pushed (nnn : Addr12) (hi : i = .call nnn) (h : s.sp.val < 16) :
      Effect i s ({ s with stack := s.stack.set s.sp.val s.pc h, sp := ⟨s.sp.val + 1, by omega⟩ }.setPc (targetOf nnn))
  | underflowed (hi : i = .ret) (h : s.sp.val = 0) :
      Effect i s (raiseFault .stackUnderflow s.instrAddr 0x00EE#16 s)
  | overflowed (nnn : Addr12) (hi : i = .call nnn) (h : s.sp.val = 16) :
      Effect i s (raiseFault .stackOverflow s.instrAddr (encode (.call nnn)) s)

/-- A skip has one of the effects on `pc` alone (R77). -/
theorem skip_effect (i : Instr) (c : Bool) (s : State) (hi : writesPc i = true) : Effect i s (skipIf c s) := by
  rw [skipIf_eq]
  cases c
  · exact .jumped _ hi (.inl rfl)
  · exact .jumped _ hi (.inr (.inl rfl))

/-- Everything an instruction can do: it answers a next state, by one of the effects. -/
theorem exec_cases (i : Instr) (s : State) : ∃ t, exec i s = .next t ∧ Effect i s t := by
  cases i with
  | nop => exact ⟨_, rfl, .unchanged rfl⟩
  | cls => exact ⟨_, rfl, .cleared rfl⟩
  | ret =>
    by_cases h : s.sp.val = 0
    · exact ⟨_, execRet_of_empty s h, .underflowed rfl h⟩
    · exact ⟨_, execRet_of_held s (Nat.pos_of_ne_zero h), .popped rfl (Nat.pos_of_ne_zero h)⟩
  | jmp nnn => exact ⟨_, rfl, .jumped _ rfl (.inr (.inr ⟨nnn, rfl⟩))⟩
  | call nnn =>
    by_cases h : s.sp.val < 16
    · exact ⟨_, execCall_of_free nnn s h, .pushed nnn rfl h⟩
    · have h16 : s.sp.val = 16 := by omega
      exact ⟨_, execCall_of_full nnn s h16, .overflowed nnn rfl h16⟩
  | skipEqImm x nn => exact ⟨_, rfl, skip_effect _ _ s rfl⟩
  | skipNeqImm x nn => exact ⟨_, rfl, skip_effect _ _ s rfl⟩
  | skipEqReg x y => exact ⟨_, rfl, skip_effect _ _ s rfl⟩
  | loadImm x nn => exact ⟨_, rfl, .wrote _ _ rfl⟩
  | addImm x nn => exact ⟨_, rfl, .wrote _ _ rfl⟩
  | copy x y => exact ⟨_, rfl, .wrote _ _ rfl⟩
  | orReg x y => exact ⟨_, rfl, .wrote _ _ rfl⟩
  | andReg x y => exact ⟨_, rfl, .wrote _ _ rfl⟩
  | xorReg x y => exact ⟨_, rfl, .wrote _ _ rfl⟩

/-- Everything a step can do (R60): held, faulted in Fetch, faulted at decode, or the instruction run after the advance. -/
theorem step_cases (s : State) :
    (s.fault ≠ none ∧ step s = .next s) ∨
    (s.fault = none ∧ 4095 ≤ s.pc.toNat ∧ step s = .next (faultFetchBounds s)) ∨
    (s.fault = none ∧ s.pc.toNat ≤ 4094 ∧ ∃ op, fetchOpcode s = some op ∧
      ((∃ e, decode op = .error e ∧ step s = .next (faultUnhandled op s)) ∨
       (∃ i, decode op = .ok i ∧ step s = exec i s.advancePc))) := by
  by_cases hf : s.fault = none
  · have hh : s.halted = false := s.halted_eq_false_iff.2 hf
    right
    by_cases hp : s.pc.toNat ≤ 4094
    · right
      refine ⟨hf, hp, _, fetchOpcode_eq_some s hp, ?_⟩
      have hb := (fetchInBounds_iff s).2 hp
      cases hd : decode (joinBytes (memLookup s.mem s.pc.toNat) (memLookup s.mem (s.pc.toNat + 1))) with
      | error e => exact .inl ⟨e, rfl, by simp [step, hh, hb, fetchOpcode_eq_some s hp, hd]⟩
      | ok i => exact .inr ⟨i, rfl, by simp [step, hh, hb, fetchOpcode_eq_some s hp, hd]⟩
    · left
      have hb : fetchInBounds s = false := by
        rw [← Bool.not_eq_true, fetchInBounds_iff]
        exact hp
      exact ⟨hf, by omega, by simp [step, hh, hb]⟩
  · exact .inl ⟨hf, by simp [step, s.halted_eq_true_iff.2 hf]⟩

end Sys2Proof.Machine
end

