-- ==== Sys2Proof/Laws/Command.lean ====
section
/-! SUPPORT. Everything a command can do, said once; and what placing an opcode does. -/

namespace Sys2Proof.Machine

/-- What a TICK can do (R112): held, or both timers counted down. -/
theorem timerTick_cases (s : State) :
    (s.fault ≠ none ∧ timerTick s = s) ∨
    (s.fault = none ∧ timerTick s = { s with dt := countDown s.dt, st := countDown s.st }) := by
  by_cases hf : s.fault = none
  · exact .inr ⟨hf, by simp [timerTick, s.halted_eq_false_iff.2 hf]⟩
  · exact .inl ⟨hf, by simp [timerTick, s.halted_eq_true_iff.2 hf]⟩

/-- What a command that answers can have done (R90): nothing, the reset, the step, the tick, one byte, one key flag. -/
theorem perform_cases {c : Command} {s : State} {r : Response} (h : perform c s = .next r) :
    r.state = s ∨ (c = .reset ∧ r.state = State.reset) ∨ (c = .step ∧ step s = .next r.state) ∨
    (c = .tick ∧ r.state = timerTick s) ∨
    (∃ a d, c = .load a d ∧ 0x200 ≤ a.toNat ∧ r.state = { s with mem := memStore s.mem a.toNat d }) ∨
    (∃ k b, c = .setKey k b ∧ r.state = s.setKeyFlag k b) := by
  cases c with
  | idle =>
    cases h
    exact .inl rfl
  | reset =>
    cases h
    exact .inr (.inl ⟨rfl, rfl⟩)
  | step =>
    right; right; left
    simp only [perform] at h
    cases hs : step s with
    | next t =>
      rw [hs] at h
      cases h
      exact ⟨rfl, rfl⟩
    | fault f => simp [hs] at h
    | refused f => simp [hs] at h
  | tick =>
    cases h
    exact .inr (.inr (.inr (.inl ⟨rfl, rfl⟩)))
  | load a d =>
    rcases loadByte_cases s a d with ⟨-, hl⟩ | ⟨ha, hl⟩ <;> simp only [perform, hl] at h <;> cases h
    · exact .inl rfl
    · exact .inr (.inr (.inr (.inr (.inl ⟨a, d, rfl, ha, rfl⟩))))
  | setKey k b =>
    cases h
    exact .inr (.inr (.inr (.inr (.inr ⟨k, b, rfl, rfl⟩))))

/-- The opcode of its two bytes (R33). -/
theorem joinBytes_bytes (op : Opcode) : joinBytes (lowerAddressByte op) (higherAddressByte op) = op := by
  apply BitVec.eq_of_getLsbD_eq
  intro k hk
  unfold joinBytes
  rw [BitVec.getLsbD_append]
  interval_cases k <;> simp [lowerAddressByte, higherAddressByte]

/-- The opcode placed is the one the next STEP fetches, and no fault and no bound stands in its way (log 7). -/
theorem fetchOpcode_placeOpcode (s : State) (op : Opcode) (hm : Memory.wf s.mem) :
    (placeOpcode s op).fault = none ∧ (placeOpcode s op).pc.toNat ≤ 4094 ∧ fetchOpcode (placeOpcode s op) = some op := by
  have hp : (placeOpcode s op).pc.toNat ≤ 4094 := by
    unfold placeOpcode
    dsimp only
    split
    · next h =>
      have h' : s.pc.toNat + 1 < 4096 := h
      omega
    · decide
  refine ⟨rfl, hp, ?_⟩
  rw [fetchOpcode_eq_some _ hp]
  have hw : Memory.wf (memStore s.mem (placeOpcode s op).pc.toNat (lowerAddressByte op)) :=
    memStore_wf _ (Nat.lt_of_le_of_lt hp (by decide)) hm
  have h1 : memLookup (placeOpcode s op).mem ((placeOpcode s op).pc.toNat + 1) = higherAddressByte op :=
    memLookup_memStore_same _ _ _ hw.1
  have h0 : memLookup (placeOpcode s op).mem (placeOpcode s op).pc.toNat = lowerAddressByte op :=
    (memLookup_memStore_other _ _ _ _ (Nat.ne_of_lt (Nat.lt_succ_self _))).trans (memLookup_memStore_same _ _ _ hm.1)
  rw [h0, h1, joinBytes_bytes]

end Sys2Proof.Machine
end

