-- ==== Sys2Proof/Laws/Decode.lean ====
section
/-! SUPPORT. The bits and fields of the three encoding formats (R46, R47), and what the masks of R49 leave of them. -/

namespace Sys2Proof

/-! ## Bit by bit -/

theorem formatA_bit (d : BitVec 4) (nnn : Addr12) (k : Nat) :
    (formatA d nnn).getLsbD k = if k < 12 then nnn.getLsbD k else d.getLsbD (k - 12) := by
  unfold formatA
  rw [BitVec.getLsbD_append]

theorem formatXN_bit (d : BitVec 4) (x : RegNum) (nn : Byte) (k : Nat) :
    (formatXN d x nn).getLsbD k =
      if k < 8 then nn.getLsbD k else if k < 12 then x.getLsbD (k - 8) else d.getLsbD (k - 12) := by
  unfold formatXN
  rw [BitVec.getLsbD_append, BitVec.getLsbD_append]
  split
  · rfl
  · simp only [show k - 8 < 4 ↔ k < 12 by omega, show k - 8 - 4 = k - 12 by omega]

theorem formatXY_bit (d : BitVec 4) (x y : RegNum) (f : BitVec 4) (k : Nat) :
    (formatXY d x y f).getLsbD k =
      if k < 4 then f.getLsbD k else if k < 8 then y.getLsbD (k - 4)
      else if k < 12 then x.getLsbD (k - 8) else d.getLsbD (k - 12) := by
  unfold formatXY
  rw [BitVec.getLsbD_append, BitVec.getLsbD_append, BitVec.getLsbD_append]
  split
  · rfl
  · simp only [show k - 4 < 4 ↔ k < 8 by omega, show k - 4 - 4 = k - 8 by omega, show k - 8 < 4 ↔ k < 12 by omega,
      show k - 8 - 4 = k - 12 by omega]

/-! ## Field by field -/

@[simp] theorem fieldNNN_formatA (d : BitVec 4) (nnn : Addr12) : fieldNNN (formatA d nnn) = nnn := by
  ext k hk
  simp only [fieldNNN, BitVec.getElem_extractLsb', formatA_bit]
  interval_cases k <;> simp

@[simp] theorem fieldX_formatXN (d : BitVec 4) (x : RegNum) (nn : Byte) : fieldX (formatXN d x nn) = x := by
  ext k hk
  simp only [fieldX, BitVec.getElem_extractLsb', formatXN_bit]
  interval_cases k <;> simp

@[simp] theorem fieldNN_formatXN (d : BitVec 4) (x : RegNum) (nn : Byte) : fieldNN (formatXN d x nn) = nn := by
  ext k hk
  simp only [fieldNN, BitVec.getElem_extractLsb', formatXN_bit]
  interval_cases k <;> simp

@[simp] theorem fieldX_formatXY (d : BitVec 4) (x y : RegNum) (f : BitVec 4) : fieldX (formatXY d x y f) = x := by
  ext k hk
  simp only [fieldX, BitVec.getElem_extractLsb', formatXY_bit]
  interval_cases k <;> simp

@[simp] theorem fieldY_formatXY (d : BitVec 4) (x y : RegNum) (f : BitVec 4) : fieldY (formatXY d x y f) = y := by
  ext k hk
  simp only [fieldY, BitVec.getElem_extractLsb', formatXY_bit]
  interval_cases k <;> simp

/-! ## As numbers (R55) -/

theorem formatA_toNat (d : BitVec 4) (nnn : Addr12) : (formatA d nnn).toNat = 4096 * d.toNat + nnn.toNat := by
  unfold formatA
  rw [BitVec.toNat_append, ← Nat.shiftLeft_add_eq_or_of_lt nnn.isLt, Nat.shiftLeft_eq]
  omega

theorem formatXN_toNat (d : BitVec 4) (x : RegNum) (nn : Byte) :
    (formatXN d x nn).toNat = 4096 * d.toNat + 256 * x.toNat + nn.toNat := by
  unfold formatXN
  rw [BitVec.toNat_append, ← Nat.shiftLeft_add_eq_or_of_lt nn.isLt, Nat.shiftLeft_eq, BitVec.toNat_append,
    ← Nat.shiftLeft_add_eq_or_of_lt x.isLt, Nat.shiftLeft_eq]
  omega

theorem formatXY_toNat (d : BitVec 4) (x y : RegNum) (f : BitVec 4) :
    (formatXY d x y f).toNat = 4096 * d.toNat + 256 * x.toNat + 16 * y.toNat + f.toNat := by
  unfold formatXY
  rw [BitVec.toNat_append, ← Nat.shiftLeft_add_eq_or_of_lt f.isLt, Nat.shiftLeft_eq, BitVec.toNat_append,
    ← Nat.shiftLeft_add_eq_or_of_lt y.isLt, Nat.shiftLeft_eq, BitVec.toNat_append,
    ← Nat.shiftLeft_add_eq_or_of_lt x.isLt, Nat.shiftLeft_eq]
  omega

/-! ## Under the masks of R49 -/

/-- The mask 0xF000 leaves digit1. -/
theorem mask_digit1 (op : Opcode) : op &&& 0xF000#16 = formatA (digit1 op) 0#12 := by
  ext k hk
  rw [← BitVec.getLsbD_eq_getElem, ← BitVec.getLsbD_eq_getElem, formatA_bit]
  interval_cases k <;> simp [digit1]

/-- The mask 0xF00F leaves digit1 and digit4. -/
theorem mask_digits14 (op : Opcode) : op &&& 0xF00F#16 = formatXY (digit1 op) 0#4 0#4 (digit4 op) := by
  ext k hk
  rw [← BitVec.getLsbD_eq_getElem, ← BitVec.getLsbD_eq_getElem, formatXY_bit]
  interval_cases k <;> simp [digit1, digit4]

@[simp] theorem digit1_formatA (d : BitVec 4) (nnn : Addr12) : digit1 (formatA d nnn) = d := by
  ext k hk
  simp only [digit1, BitVec.getElem_extractLsb', formatA_bit]
  interval_cases k <;> simp

@[simp] theorem digit1_formatXN (d : BitVec 4) (x : RegNum) (nn : Byte) : digit1 (formatXN d x nn) = d := by
  ext k hk
  simp only [digit1, BitVec.getElem_extractLsb', formatXN_bit]
  interval_cases k <;> simp

@[simp] theorem digit1_formatXY (d : BitVec 4) (x y : RegNum) (f : BitVec 4) : digit1 (formatXY d x y f) = d := by
  ext k hk
  simp only [digit1, BitVec.getElem_extractLsb', formatXY_bit]
  interval_cases k <;> simp

@[simp] theorem digit4_formatXY (d : BitVec 4) (x y : RegNum) (f : BitVec 4) : digit4 (formatXY d x y f) = f := by
  ext k hk
  simp only [digit4, BitVec.getElem_extractLsb', formatXY_bit]
  interval_cases k <;> simp

end Sys2Proof
end

