-- ==== Sys2Proof/Laws/PerInstr.lean ====
section
/-! SUPPORT. Per-instruction laws: the encoding of every instruction lies in its own row of the opcode map (R49). -/

namespace Sys2Proof.Laws.EncodesInRow

/-- The instruction's opcode matches the row of the opcode map that bears its mnemonic. -/
def Statement (i : Instr) : Prop := ∃ r ∈ opcodeTable, r.mnemonic = mnemonicOf i ∧ rowMatches r (encode i) = true

/-- A row of mask 0xF000 matches by digit1 alone. -/
theorem row_of_digit1 (m : Mnemonic) (d : BitVec 4) (op : Opcode) (h : digit1 op = d) :
    rowMatches ⟨m, 0xF000#16, formatA d 0#12⟩ op = true := by
  simp [rowMatches, mask_digit1, h]

/-- A row of mask 0xF00F matches by digit1 and digit4. -/
theorem row_of_digits14 (m : Mnemonic) (d f : BitVec 4) (op : Opcode) (h1 : digit1 op = d) (h4 : digit4 op = f) :
    rowMatches ⟨m, 0xF00F#16, formatXY d 0#4 0#4 f⟩ op = true := by
  simp [rowMatches, mask_digits14, h1, h4]

theorem nop : Statement .nop := ⟨⟨.NOP, 0xFFFF#16, 0x0000#16⟩, by decide, rfl, by decide⟩

theorem cls : Statement .cls := ⟨⟨.CLS, 0xFFFF#16, 0x00E0#16⟩, by decide, rfl, by decide⟩

theorem ret : Statement .ret := ⟨⟨.RET, 0xFFFF#16, 0x00EE#16⟩, by decide, rfl, by decide⟩

theorem jmp (nnn : Addr12) : Statement (.jmp nnn) :=
  ⟨⟨.JMP, 0xF000#16, formatA 0x1#4 0#12⟩, by decide, rfl, row_of_digit1 _ _ _ (digit1_formatA _ _)⟩

theorem call (nnn : Addr12) : Statement (.call nnn) :=
  ⟨⟨.CALL, 0xF000#16, formatA 0x2#4 0#12⟩, by decide, rfl, row_of_digit1 _ _ _ (digit1_formatA _ _)⟩

theorem skipEqImm (x : RegNum) (nn : Byte) : Statement (.skipEqImm x nn) :=
  ⟨⟨.SKIP_EQ_IMM, 0xF000#16, formatA 0x3#4 0#12⟩, by decide, rfl, row_of_digit1 _ _ _ (digit1_formatXN _ _ _)⟩

theorem skipNeqImm (x : RegNum) (nn : Byte) : Statement (.skipNeqImm x nn) :=
  ⟨⟨.SKIP_NEQ_IMM, 0xF000#16, formatA 0x4#4 0#12⟩, by decide, rfl, row_of_digit1 _ _ _ (digit1_formatXN _ _ _)⟩

theorem skipEqReg (x y : RegNum) : Statement (.skipEqReg x y) :=
  ⟨⟨.SKIP_EQ_REG, 0xF00F#16, formatXY 0x5#4 0#4 0#4 0x0#4⟩, by decide, rfl,
    row_of_digits14 _ _ _ _ (digit1_formatXY _ _ _ _) (digit4_formatXY _ _ _ _)⟩

theorem loadImm (x : RegNum) (nn : Byte) : Statement (.loadImm x nn) :=
  ⟨⟨.LOAD_IMM, 0xF000#16, formatA 0x6#4 0#12⟩, by decide, rfl, row_of_digit1 _ _ _ (digit1_formatXN _ _ _)⟩

theorem addImm (x : RegNum) (nn : Byte) : Statement (.addImm x nn) :=
  ⟨⟨.ADD_IMM, 0xF000#16, formatA 0x7#4 0#12⟩, by decide, rfl, row_of_digit1 _ _ _ (digit1_formatXN _ _ _)⟩

theorem copy (x y : RegNum) : Statement (.copy x y) :=
  ⟨⟨.COPY, 0xF00F#16, formatXY 0x8#4 0#4 0#4 0x0#4⟩, by decide, rfl,
    row_of_digits14 _ _ _ _ (digit1_formatXY _ _ _ _) (digit4_formatXY _ _ _ _)⟩

theorem orReg (x y : RegNum) : Statement (.orReg x y) :=
  ⟨⟨.OR, 0xF00F#16, formatXY 0x8#4 0#4 0#4 0x1#4⟩, by decide, rfl,
    row_of_digits14 _ _ _ _ (digit1_formatXY _ _ _ _) (digit4_formatXY _ _ _ _)⟩

theorem andReg (x y : RegNum) : Statement (.andReg x y) :=
  ⟨⟨.AND, 0xF00F#16, formatXY 0x8#4 0#4 0#4 0x2#4⟩, by decide, rfl,
    row_of_digits14 _ _ _ _ (digit1_formatXY _ _ _ _) (digit4_formatXY _ _ _ _)⟩

theorem xorReg (x y : RegNum) : Statement (.xorReg x y) :=
  ⟨⟨.XOR, 0xF00F#16, formatXY 0x8#4 0#4 0#4 0x3#4⟩, by decide, rfl,
    row_of_digits14 _ _ _ _ (digit1_formatXY _ _ _ _) (digit4_formatXY _ _ _ _)⟩

end Sys2Proof.Laws.EncodesInRow
end

