-- ==== Sys2Proof/Tests/Slice0.lean ====
section
/-! SUPPORT. Tests. Expected results come from the spec: its encodings (R49) and its vectors (95_test_vectors.md; the
vector's id stands in each comment). The second part holds a witness for every statement that has hypotheses. -/

namespace Sys2Proof.Machine.Tests

/-! ## Helpers -/

/-- The state a boot with these program bytes leaves (R124). -/
def boot (program : List Byte) : State :=
  match performAll (bootCommands program) State.reset with
  | .next s => s
  | _ => State.reset

/-- The state a step leaves. -/
def stepped (s : State) : Option State :=
  match step s with
  | .next t => some t
  | _ => none

/-- The response to a command. -/
def response (c : Command) (s : State) : Option Response :=
  match perform c s with
  | .next r => some r
  | _ => none

/-- The state a sequence of commands leaves. -/
def after (cs : List Command) (s : State) : Option State :=
  match performAll cs s with
  | .next t => some t
  | _ => none

/-- `V[x]` set directly. -/
def withReg (x : RegNum) (b : Byte) (s : State) : State := s.setReg x b

/-! ## WellFormed: an ill-formed term for each check -/

/-- An operand too many for format Z (R46). -/
theorem test_wf_z_refuses_operand : AsmTerm.wellFormed ⟨.NOP, [0]⟩ = false := by decide
/-- `nnn` past 12 bits. -/
theorem test_wf_a_refuses_wide_nnn : AsmTerm.wellFormed ⟨.JMP, [4096]⟩ = false := by decide
/-- A register number past 15 in format XN. -/
theorem test_wf_xn_refuses_register16 : AsmTerm.wellFormed ⟨.LOAD_IMM, [16, 0]⟩ = false := by decide
/-- `nn` past 8 bits. -/
theorem test_wf_xn_refuses_wide_nn : AsmTerm.wellFormed ⟨.ADD_IMM, [0, 256]⟩ = false := by decide
/-- A register number past 15 in each place of format XY. -/
theorem test_wf_xy_refuses_register16 :
    AsmTerm.wellFormed ⟨.XOR, [16, 0]⟩ = false ∧ AsmTerm.wellFormed ⟨.XOR, [0, 16]⟩ = false := by decide
/-- An operand missing. -/
theorem test_wf_refuses_missing_operand : AsmTerm.wellFormed ⟨.COPY, [1]⟩ = false := by decide
/-- The largest operands are accepted (R55). -/
theorem test_wf_accepts_largest :
    AsmTerm.wellFormed ⟨.CALL, [4095]⟩ = true ∧ AsmTerm.wellFormed ⟨.LOAD_IMM, [15, 255]⟩ = true := by decide
/-- A program of 3585 bytes does not fit (R92); one of 3584 does. -/
theorem test_wf_program_length :
    wellFormedProgram (List.replicate 3585 0) = false ∧ wellFormedProgram (List.replicate 3584 0) = true := by
  constructor <;> rw [wellFormedProgram, List.length_replicate] <;> decide

/-! ## Decoding: words written out from the bit strings of R49 -/

theorem test_decode_nop : decode 0b0000000000000000#16 = .ok .nop := by decide
theorem test_decode_cls : decode 0b0000000011100000#16 = .ok .cls := by decide
theorem test_decode_ret : decode 0b0000000011101110#16 = .ok .ret := by decide
theorem test_decode_jmp : decode 0b0001101010111100#16 = .ok (.jmp 0xABC#12) := by decide
theorem test_decode_call : decode 0b0010001101000101#16 = .ok (.call 0x345#12) := by decide
theorem test_decode_skipEqImm : decode 0b0011001101000010#16 = .ok (.skipEqImm 3#4 0x42#8) := by decide
theorem test_decode_skipNeqImm : decode 0b0100001101000010#16 = .ok (.skipNeqImm 3#4 0x42#8) := by decide
theorem test_decode_skipEqReg : decode 0b0101101010110000#16 = .ok (.skipEqReg 0xA#4 0xB#4) := by decide
theorem test_decode_loadImm : decode 0b0110101001111011#16 = .ok (.loadImm 0xA#4 0x7B#8) := by decide
theorem test_decode_addImm : decode 0b0111111100000010#16 = .ok (.addImm 0xF#4 0x02#8) := by decide
theorem test_decode_copy : decode 0b1000111111100000#16 = .ok (.copy 0xF#4 0xE#4) := by decide
theorem test_decode_or : decode 0b1000000100100001#16 = .ok (.orReg 1#4 2#4) := by decide
theorem test_decode_and : decode 0b1000000100100010#16 = .ok (.andReg 1#4 2#4) := by decide
theorem test_decode_xor : decode 0b1000000100100011#16 = .ok (.xorReg 1#4 2#4) := by decide
/-- The lowest and highest word of each range of R52's table of illegal opcodes. -/
theorem test_decode_illegal :
    ([0x0001, 0x00DF, 0x00E1, 0x00ED, 0x00EF, 0x0FFF, 0x5001, 0x5FFF, 0x8004, 0x8FFF, 0x9000, 0x9FFF, 0xA000, 0xB000,
      0xC000, 0xD000, 0xE000, 0xF000, 0xFFFF] : List Opcode).all (fun op => decode op == .error (.unhandledInstruction op)) := by
  decide
/-- R55's table: `SKIP_EQ_REG(x, y)` is 0x5000 + 256*x + 16*y, and `CALL(nnn)` 0x2000 + nnn. -/
theorem test_assemble :
    (assemble ⟨.SKIP_EQ_REG, [2, 0]⟩).map encode = some 0x5200#16 ∧ (assemble ⟨.CALL, [0x208]⟩).map encode = some 0x2208#16 := by
  decide
/-- The table's numbering: a 16-bit row, and the bits above `nbits` are 0. -/
theorem test_decodeTableWord :
    decodeTableWord 16 0x82F1 = some (.orReg 2#4 15#4) ∧ decodeTableWord 16 0x8004 = none ∧
      decodeTableWord 8 0x12E0 = some .cls := by decide

/-! ## One step of each instruction -/

/-- T2.1. -/
theorem test_step_nop : (stepped State.reset).map (·.pc) = some 0x202#16 := by decide
/-- T2.3. -/
theorem test_step_cls :
    (stepped { boot [0x00, 0xE0] with screen := BitVec.allOnes 2048 }).map (fun t => (t.pc, t.screen)) =
      some (0x202#16, BitVec.zero 2048) := by decide +kernel
/-- T3.8: the whole 16-entry stack, and the entry stays. -/
theorem test_step_ret :
    (stepped { boot [0x00, 0xEE] with sp := 16, stack := (Vector.replicate 16 0#16).set 15 0x0ABC#16 }).map
      (fun t => (t.pc, t.sp, t.stack[15])) = some (0x0ABC#16, 15, 0x0ABC#16) := by decide
/-- T3.5: RET on an empty stack. -/
theorem test_step_ret_underflow :
    (stepped (boot [0x00, 0xEE])).map (fun t => (t.pc, t.sp, t.fault)) =
      some (0x202#16, 0, some ⟨.stackUnderflow, 0x0200#16, 0x00EE#16⟩) := by decide
/-- T1.5. -/
theorem test_step_jmp : (stepped (boot [0x1A, 0xBC])).map (·.pc) = some 0x0ABC#16 := by decide
/-- T3.1: a JMP to itself changes no state. -/
theorem test_step_jmp_self : stepped (boot [0x12, 0x00]) = some (boot [0x12, 0x00]) := by decide
/-- T3.7: the sixteenth push overwrites the stale entry. -/
theorem test_step_call :
    (stepped { boot [0x23, 0x00] with sp := 15, stack := Vector.replicate 16 0xBEEF#16 }).map
      (fun t => (t.pc, t.sp, t.stack[15], t.stack[14])) = some (0x300#16, 16, 0x0202#16, 0xBEEF#16) := by decide
/-- T3.6: CALL on a full stack. -/
theorem test_step_call_overflow :
    (stepped { boot [0x23, 0x00] with sp := 16 }).map (fun t => (t.pc, t.sp, t.fault)) =
      some (0x202#16, 16, some ⟨.stackOverflow, 0x0200#16, 0x2300#16⟩) := by decide
/-- T4.1 and T4.2. -/
theorem test_step_skipEqImm :
    (stepped (withReg 3#4 0x42#8 (boot [0x33, 0x42]))).map (·.pc) = some 0x204#16 ∧
      (stepped (withReg 3#4 0x43#8 (boot [0x33, 0x42]))).map (·.pc) = some 0x202#16 := by decide
/-- T4.3 and T4.4. -/
theorem test_step_skipNeqImm :
    (stepped (withReg 3#4 0x42#8 (boot [0x43, 0x42]))).map (·.pc) = some 0x202#16 ∧
      (stepped (withReg 3#4 0x43#8 (boot [0x43, 0x42]))).map (·.pc) = some 0x204#16 := by decide
/-- T4.5 and T4.6. -/
theorem test_step_skipEqReg :
    (stepped (withReg 1#4 0x80#8 (withReg 2#4 0x80#8 (boot [0x51, 0x20])))).map (·.pc) = some 0x204#16 ∧
      (stepped (withReg 1#4 0x80#8 (withReg 2#4 0x7F#8 (boot [0x51, 0x20])))).map (·.pc) = some 0x202#16 := by decide
/-- T1.1: big-endian. -/
theorem test_step_loadImm :
    (stepped (boot [0x6A, 0x7B])).map (fun t => (t.reg 0xA#4, t.reg 0xB#4, t.pc)) = some (0x7B#8, 0#8, 0x202#16) := by decide
/-- T5.4: wraps, and VF receives no carry. -/
theorem test_step_addImm :
    (stepped (withReg 5#4 0xFF#8 (boot [0x75, 0x01]))).map (fun t => (t.reg 5#4, t.reg 15#4)) = some (0#8, 0#8) := by decide
/-- T5.6: VF as the destination holds the sum. -/
theorem test_step_addImm_vf :
    (stepped (withReg 15#4 0x01#8 (boot [0x7F, 0xFF]))).map (·.reg 15#4) = some 0#8 := by decide

/-- The start of T8.1 to T8.4. -/
def t8 (program : List Byte) : State := withReg 1#4 0xCA#8 (withReg 2#4 0x53#8 (withReg 15#4 0x5A#8 (boot program)))
/-- V1, V2 and VF after a step. -/
def v12f (s : State) : Option (Byte × Byte × Byte) := (stepped s).map fun t => (t.reg 1#4, t.reg 2#4, t.reg 15#4)

/-- T8.1. -/
theorem test_step_copy : v12f (t8 [0x81, 0x20]) = some (0x53#8, 0x53#8, 0x5A#8) := by decide
/-- T8.2. -/
theorem test_step_or : v12f (t8 [0x81, 0x21]) = some (0xDB#8, 0x53#8, 0x5A#8) := by decide
/-- T8.3. -/
theorem test_step_and : v12f (t8 [0x81, 0x22]) = some (0x42#8, 0x53#8, 0x5A#8) := by decide
/-- T8.4: VF is not reset. -/
theorem test_step_xor : v12f (t8 [0x81, 0x23]) = some (0x99#8, 0x53#8, 0x5A#8) := by decide
/-- T8.5: the source is also the destination. -/
theorem test_step_xor_self : (stepped (withReg 4#4 0xE7#8 (boot [0x84, 0x43]))).map (·.reg 4#4) = some 0#8 := by decide

/-! ## Fetch -/

/-- T1.2, second step: an odd `pc` fetches normally. -/
theorem test_fetch_odd :
    (stepped { boot [0x12, 0x03, 0x00, 0x6A, 0x7B] with pc := 0x203#16 }).map (fun t => (t.reg 0xA#4, t.pc)) =
      some (0x7B#8, 0x205#16) := by decide
/-- T7.4: 0x0FFE is the last address that can be fetched; from 0x0FFF on FETCH_BOUNDS, `pc` unchanged, no wrap. -/
theorem test_fetch_bounds :
    (stepped { State.reset with pc := 0x0FFE#16 }).map (fun t => (t.pc, t.fault)) = some (0x1000#16, none) ∧
      ([0x0FFF, 0x1000, 0x8000, 0xFFFF] : List Word).all (fun p =>
        (stepped { State.reset with pc := p }).map (fun t => (t.pc, t.fault)) = some (p, some ⟨.fetchBounds, p, 0#16⟩)) := by
  decide
/-- T6.1: an illegal opcode changes nothing but `pc` and the record. -/
theorem test_illegal :
    stepped (withReg 0#4 0xFF#8 (withReg 1#4 0x01#8 (boot [0x80, 0x14]))) =
      some { withReg 0#4 0xFF#8 (withReg 1#4 0x01#8 (boot [0x80, 0x14])) with
        pc := 0x202#16, fault := some ⟨.unhandledInstruction, 0x0200#16, 0x8014#16⟩ } := by decide
/-- T6.3, second step: the first two bytes of the conventional font are no instruction. -/
theorem test_font_as_code :
    (stepped { State.reset with pc := 0#16, mem := [(0, Config.conventionalFont[0]), (1, Config.conventionalFont[1])] }).map
      (fun t => (t.pc, t.fault)) = some (0x002#16, some ⟨.unhandledInstruction, 0#16, 0xF090#16⟩) := by decide
/-- The host's placing of a word: it is the first instruction after reset, also from a halted state whose `pc` is out of
bounds. -/
theorem test_withFetchWord :
    (stepped (State.reset.withFetchWord 16 0x6A7B)).map (fun t => (t.reg 0xA#4, t.pc)) = some (0x7B#8, 0x202#16) ∧
      (stepped (State.withFetchWord { State.reset with pc := 0xFFFF#16, fault := some ⟨.fetchBounds, 0xFFFF#16, 0#16⟩ } 16
        0x6A7B)).map (fun t => (t.reg 0xA#4, t.pc)) = some (0x7B#8, 0x202#16) := by decide

/-! ## Commands -/

/-- T9.3, second tick: the cue goes with the tick that finds `ST == 1`. -/
theorem test_tick_cue :
    (response .tick { State.reset with st := 1#8 }).map (fun r => (r.state.st, r.audioCue, (outputs r).soundActive)) =
      some (0#8, true, false) := by decide
/-- T9.4 and T9.1: no wrap below 0, no cue. -/
theorem test_tick_counts :
    (response .tick { State.reset with dt := 0xFF#8, st := 0xFF#8 }).map (fun r => (r.state.dt, r.state.st, r.audioCue)) =
      some (0xFE#8, 0xFE#8, false) ∧
    (response .tick State.reset).map (fun r => (r.state.dt, r.state.st, r.audioCue)) = some (0#8, 0#8, false) := by decide

/-- A state halted as in T9.6. -/
def halted : State :=
  { State.reset with dt := 5#8, st := 1#8, pc := 0x202#16, fault := some ⟨.unhandledInstruction, 0x0200#16, 0xFFFF#16⟩ }

/-- T9.6: TICK is held while halted, and STEP refused (T7.5). -/
theorem test_halted_holds :
    response .tick halted = some ⟨halted, .stepOk, false⟩ ∧ response .step halted = some ⟨halted, .stepRefused, false⟩ := by
  decide
/-- T7.5: LOAD and SETKEY act while halted. -/
theorem test_halted_load_setKey :
    (response (.load 0xFFF#12 0x12#8) halted).map (fun r => readByte r.state 0xFFF) = some (some 0x12#8) ∧
      (response (.setKey 3#4 true) halted).map (·.state.keys[3]) = some true := by decide
/-- T10.4: the gate at 0x200. -/
theorem test_load_gate :
    (response (.load 0x1FF#12 0xAB#8) State.reset).map (·.state) = some State.reset ∧
      (response (.load 0x200#12 0xCD#8) State.reset).map (fun r => readByte r.state 0x200) = some (some 0xCD#8) := by decide
/-- T10.3: RESET clears a fault and erases the program. -/
theorem test_reset_clears :
    (response .reset { boot [0x60, 0x05] with fault := some ⟨.stackUnderflow, 0x0200#16, 0x00EE#16⟩ }).map (·.state) =
      some State.reset := by decide
/-- T3.5 and R64: a faulting STEP reports STEP_FAULT and the fault outputs show the record (R101: code 4). -/
theorem test_step_fault_outputs :
    (response .step (boot [0x00, 0xEE])).map outputs =
      some ⟨.stepFault, true, 4#3, 0x0200#16, 0x00EE#16, false, false, BitVec.zero 2048⟩ := by decide
/-- R97: the codes of the command pins, 6 and 7 being IDLE. -/
theorem test_pins :
    commandOfPins 0#3 0 0 0 false = .idle ∧ commandOfPins 1#3 0 0 0 false = .reset ∧ commandOfPins 2#3 0 0 0 false = .step ∧
      commandOfPins 3#3 0 0 0 false = .tick ∧ commandOfPins 4#3 0x200#12 7#8 0 false = .load 0x200#12 7#8 ∧
      commandOfPins 5#3 0 0 9#4 true = .setKey 9#4 true ∧ commandOfPins 6#3 0 0 0 false = .idle ∧
      commandOfPins 7#3 0 0 0 false = .idle := by decide
/-- R97: at most one command is sampled, T10.9: IDLE changes nothing. -/
theorem test_idle : response .idle (boot [0x60, 0x05]) = some ⟨boot [0x60, 0x05], .stepOk, false⟩ := by decide

/-! ## Witnesses: a concrete state and operands that meet a statement's hypotheses together -/

theorem witness_DecodeFollowsTheOpcodeMap :
    (0x1FFF#16 &&& 0xF000#16 = 0x1000#16) ∧ (0x2000#16 &&& 0xF000#16 = 0x2000#16) ∧ (0x3FFF#16 &&& 0xF000#16 = 0x3000#16) ∧
    (0x4000#16 &&& 0xF000#16 = 0x4000#16) ∧ (0x5FF0#16 &&& 0xF00F#16 = 0x5000#16) ∧ (0x6FFF#16 &&& 0xF000#16 = 0x6000#16) ∧
    (0x7000#16 &&& 0xF000#16 = 0x7000#16) ∧ (0x8FF0#16 &&& 0xF00F#16 = 0x8000#16) ∧ (0x8001#16 &&& 0xF00F#16 = 0x8001#16) ∧
    (0x8FF2#16 &&& 0xF00F#16 = 0x8002#16) ∧ (0x8003#16 &&& 0xF00F#16 = 0x8003#16) := by decide

theorem witness_DecodeFollowsTheOpcodeMap_illegal :
    let op : Opcode := 0x8FF4#16
    op ≠ 0x0000#16 ∧ op ≠ 0x00E0#16 ∧ op ≠ 0x00EE#16 ∧
      (∀ d : BitVec 4, d ∈ [1#4, 2#4, 3#4, 4#4, 6#4, 7#4] → op &&& 0xF000#16 ≠ d ++ 0x000#12) ∧
      op &&& 0xF00F#16 ≠ 0x5000#16 ∧ op &&& 0xF00F#16 ≠ 0x8000#16 ∧ op &&& 0xF00F#16 ≠ 0x8001#16 ∧
      op &&& 0xF00F#16 ≠ 0x8002#16 ∧ op &&& 0xF00F#16 ≠ 0x8003#16 := by
  intro op
  refine ⟨by decide, by decide, by decide, ?_, by decide, by decide, by decide, by decide, by decide⟩
  intro d hd
  simp only [List.mem_cons, List.not_mem_nil, or_false] at hd
  rcases hd with rfl | rfl | rfl | rfl | rfl | rfl <;> decide

theorem witness_OperandsAreSlicesOfTheOpcode : decode 0x3F80#16 = .ok (.skipEqImm 15#4 0x80#8) := by decide

theorem witness_EncodeInvertsDecode : decode 0x8FF3#16 = .ok (.xorReg 15#4 15#4) := by decide

theorem witness_OpcodePatternsAreDisjoint :
    (⟨.XOR, 0xF00F#16, 0x8003#16⟩ : OpcodeRow) ∈ opcodeTable ∧ rowMatches ⟨.XOR, 0xF00F#16, 0x8003#16⟩ 0x8FF3#16 = true := by
  decide

theorem witness_AssemblyTermsAreInstructions :
    assemble ⟨.ADD_IMM, [15, 255]⟩ = some (.addImm 15#4 255#8) ∧ AsmTerm.wellFormed ⟨.ADD_IMM, [15, 255]⟩ = true := by decide

theorem witness_NopChangesNothing :
    State.reset.fault = none ∧ State.reset.pc.toNat ≤ 4094 ∧ readByte State.reset State.reset.pc.toNat = some 0x00#8 ∧
      readByte State.reset (State.reset.pc.toNat + 1) = some 0x00#8 := by decide

theorem witness_CallPushesAndJumps : State.reset.sp.val < 16 ∧ ({ State.reset with sp := 15 } : State).sp.val < 16 := by decide

theorem witness_RetPopsIntoPc :
    ({ State.reset with sp := 1 } : State).sp.val = 0 + 1 ∧ ({ State.reset with sp := 16 } : State).sp.val = 15 + 1 := by decide

theorem witness_CallOnFullStackLatchesOverflow : ({ State.reset with sp := 16 } : State).sp.val = 16 := by decide

theorem witness_RetOnEmptyStackLatchesUnderflow : State.reset.sp.val = 0 := by decide

theorem witness_SkipNeqImmSkipsWhenDifferent : State.reset.reg 3#4 = 0#8 ∧ State.reset.reg 3#4 ≠ 1#8 := by decide

theorem witness_SkipEqRegSkipsWhenEqual : 1 ≤ 1 ∧ 1 ≤ 15 ∧ 15 ≤ 15 ∧ (7#4 : RegNum) = 7#4 := by decide

theorem witness_XorIsBitwise : (15#4 : RegNum) = 15#4 := rfl

theorem witness_RegisterFamilyWritesOnlyVx :
    (Instr.orReg 1#4 15#4, fun (a b : Byte) => a ||| b) ∈
      [(Instr.copy 1#4 15#4, fun _ b => b), (.orReg 1#4 15#4, fun a b => a ||| b), (.andReg 1#4 15#4, fun a b => a &&& b),
        (.xorReg 1#4 15#4, fun (a b : Byte) => a ^^^ b)] ∧ (1#4 : RegNum) ≠ 15#4 ∧ 4 ≤ 4 ∧ 4 ≤ 15 ∧ 15 ≤ 15 :=
  ⟨List.mem_cons_of_mem _ (List.mem_cons_self ..), by decide⟩

theorem witness_OperationsWriteOnlyWhatTheyName :
    destination (.addImm 3#4 1#8) ≠ some 15#4 ∧ writesPc (.addImm 3#4 1#8) = false ∧ Instr.ret ≠ .cls ∧ Instr.cls ≠ .ret ∧
      (∀ nnn, Instr.cls ≠ .call nnn) := by simp [destination, writesPc]

theorem witness_OperationsWriteOnlyWhatTheyName_fault :
    ∃ t, exec .ret State.reset = .next t ∧ t.fault ≠ State.reset.fault :=
  ⟨_, execRet_of_empty State.reset rfl, by simp [State.reset]⟩

theorem witness_CallStackIsLifo :
    State.reset.sp.val + (List.replicate 16 (0x202 : Word)).length ≤ 16 ∧
      16 < State.reset.sp.val + (List.replicate 17 (0x202 : Word)).length := by decide

theorem witness_RetReturnsToAfterTheCall :
    ∃ t, exec (.call 0x345#12) State.reset = .next t ∧ t.stack = t.stack ∧ t.sp = t.sp :=
  ⟨_, execCall_of_free _ State.reset (by decide), rfl, rfl⟩

theorem witness_FetchIsBigEndian : ({ State.reset with pc := 4094#16 } : State).pc.toNat ≤ 4094 := by decide

theorem witness_StepRunsTheDecodedInstruction :
    let s := boot [0x6A, 0x7B]
    s.fault = none ∧ s.pc.toNat ≤ 4094 ∧ readByte s s.pc.toNat = some 0x6A#8 ∧ readByte s (s.pc.toNat + 1) = some 0x7B#8 ∧
      decode (joinBytes 0x6A#8 0x7B#8) = .ok (.loadImm 0xA#4 0x7B#8) := by decide

theorem witness_PcAfterEachInstruction :
    let s := { boot [0x00, 0xEE] with sp := 1 }
    s.fault = none ∧ s.pc.toNat ≤ 4094 ∧ fetchOpcode s = some 0x00EE#16 ∧ decode 0x00EE#16 = .ok .ret ∧
      ExecutesSafely .ret s := ⟨by decide, by decide, by decide, by decide, Nat.one_pos⟩

/-- Each skip, taken and not taken, at the last address Fetch reaches and at an odd one. -/
theorem witness_SkipsStepOverTwoUnreadBytes :
    let s : State := { State.reset with pc := 4094#16, mem := [(0xFFE, 0x33#8)] }
    let u : State := { State.reset with pc := 0x201#16, mem := [(0x201, 0x43#8), (0x202, 0x07#8), (0x203, 0xFF#8)] }
    let v : State := { State.reset with mem := [(0x200, 0x53#8), (0x201, 0x40#8)] }
    ((Instr.skipEqImm 3#4 0#8, true) ∈ [(Instr.skipEqImm 3#4 0#8, decide (s.reg 3#4 = 0#8)),
        (.skipNeqImm 3#4 0#8, decide (s.reg 3#4 ≠ 0#8)), (.skipEqReg 3#4 4#4, decide (s.reg 3#4 = s.reg 4#4))] ∧
      s.fault = none ∧ s.pc.toNat ≤ 4094 ∧ fetchOpcode s = some 0x3300#16 ∧ decode 0x3300#16 = .ok (.skipEqImm 3#4 0#8)) ∧
    ((Instr.skipNeqImm 3#4 7#8, true) ∈ [(Instr.skipEqImm 3#4 7#8, decide (u.reg 3#4 = 7#8)),
        (.skipNeqImm 3#4 7#8, decide (u.reg 3#4 ≠ 7#8)), (.skipEqReg 3#4 4#4, decide (u.reg 3#4 = u.reg 4#4))] ∧
      u.fault = none ∧ u.pc.toNat ≤ 4094 ∧ fetchOpcode u = some 0x4307#16 ∧ decode 0x4307#16 = .ok (.skipNeqImm 3#4 7#8)) ∧
    ((Instr.skipEqReg 3#4 4#4, false) ∈ [(Instr.skipEqImm 3#4 7#8, decide ((withReg 3#4 1#8 v).reg 3#4 = 7#8)),
        (.skipNeqImm 3#4 7#8, decide ((withReg 3#4 1#8 v).reg 3#4 ≠ 7#8)),
        (.skipEqReg 3#4 4#4, decide ((withReg 3#4 1#8 v).reg 3#4 = (withReg 3#4 1#8 v).reg 4#4))] ∧
      (withReg 3#4 1#8 v).fault = none ∧ (withReg 3#4 1#8 v).pc.toNat ≤ 4094 ∧
      fetchOpcode (withReg 3#4 1#8 v) = some 0x5340#16 ∧ decode 0x5340#16 = .ok (.skipEqReg 3#4 4#4)) ∧
    (readByte { u with mem := [(0x201, 0x43#8), (0x202, 0x07#8)] } 0x201 = readByte u 0x201 ∧
      readByte { u with mem := [(0x201, 0x43#8), (0x202, 0x07#8)] } 0x202 = readByte u 0x202) := by
  decide

theorem witness_FetchOutOfBoundsLatchesFault :
    ({ State.reset with pc := 4095#16 } : State).fault = none ∧ 4095 ≤ ({ State.reset with pc := 4095#16 } : State).pc.toNat := by
  decide

theorem witness_IllegalOpcodeLatchesFault :
    let s := boot [0x8F, 0xF4]
    s.fault = none ∧ s.pc.toNat ≤ 4094 ∧ fetchOpcode s = some 0x8FF4#16 ∧
      (∀ r ∈ opcodeTable, 0x8FF4#16 &&& r.mask ≠ r.pattern) := by decide

/-- One state for each cause. -/
theorem witness_FaultingStepIsPrecise :
    ((stepped { State.reset with pc := 4095#16 }).bind (·.fault)).map (·.cause) = some .fetchBounds ∧
    ((stepped (boot [0x00, 0xE1])).bind (·.fault)).map (·.cause) = some .unhandledInstruction ∧
    ((stepped { boot [0x2F, 0xFF] with sp := 16 }).bind (·.fault)).map (·.cause) = some .stackOverflow ∧
    ((stepped (boot [0x00, 0xEE])).bind (·.fault)).map (·.cause) = some .stackUnderflow ∧ State.reset.fault = none := by decide

theorem witness_HaltedStepIsRefused : halted.fault ≠ none := by decide

/-- STEP_OK, STEP_FAULT and STEP_REFUSED all occur. -/
theorem witness_StepResultIsExact :
    (response .step State.reset).map (·.result) = some .stepOk ∧
    (response .step (boot [0x00, 0xE1])).map (·.result) = some .stepFault ∧
    (response .step halted).map (·.result) = some .stepRefused := by decide

theorem witness_StepsSafely : StepsSafely State.reset :=
  ⟨rfl, by decide, 0x0000#16, .nop, by decide, by decide, trivial⟩

theorem witness_IdleLoopChangesNothing : IdleLoop (boot [0x12, 0x00]) :=
  ⟨by decide, by decide, 0x200#12, by decide, by decide⟩

theorem witness_StepIgnoresKeysIndexAndTimers : ∃ t, step State.reset = .next t :=
  ⟨{ State.reset with pc := 0x202#16 }, rfl⟩

theorem witness_StepSeesOnlyItsTwoBytes :
    let m : Memory := [(0x300, 0x12#8)]
    readByte { State.reset with mem := m } State.reset.pc.toNat = readByte State.reset State.reset.pc.toNat ∧
      readByte { State.reset with mem := m } (State.reset.pc.toNat + 1) = readByte State.reset (State.reset.pc.toNat + 1) ∧
      stepped State.reset = some { State.reset with pc := 0x202#16 } := by decide

theorem witness_TickCountsDownAndCues :
    ({ State.reset with dt := 255#8, st := 1#8 } : State).fault = none ∧ halted.fault ≠ none := by decide

theorem witness_TimersReachZeroAndStay : ({ State.reset with dt := 255#8, st := 1#8 } : State).fault = none := by decide

/-- The gate's two sides meet at 0x1FF and 0x200. -/
theorem witness_LoadWritesOneByte :
    Memory.wf State.reset.mem ∧ 0x200 ≤ (0x200#12 : Addr12).toNat ∧ (0x1FF#12 : Addr12).toNat < 0x200 ∧
      0x1FF ≠ (0x200#12 : Addr12).toNat := ⟨reset_mem_wf, by decide⟩

theorem witness_LoadedWordIsFetchedNext :
    Memory.wf State.reset.mem ∧ State.reset.fault = none ∧ 0x200 ≤ State.reset.pc.toNat ∧ State.reset.pc.toNat ≤ 4094 ∧
      decode (joinBytes 0x6B#8 0x0C#8) = .ok (.loadImm 0xB#4 0x0C#8) := ⟨reset_mem_wf, by decide⟩

theorem witness_LowMemoryChangesOnlyByReset :
    Command.load 0x1FF#12 0xAB#8 ≠ .reset ∧ (response (.load 0x1FF#12 0xAB#8) State.reset).isSome = true ∧ 0x1FF < 0x200 := by
  decide

theorem witness_ScreenChangesOnlyByClsOrReset :
    (response .step { boot [0x00, 0xE0] with screen := BitVec.allOnes 2048 }).map
      (fun r => decide (r.state.screen ≠ BitVec.allOnes 2048)) = some true := by decide +kernel

/-- No record, and a record of each cause (R101), each latched by a STEP. -/
theorem witness_OutputsReportTheState :
    State.reset.fault = none ∧
    (stepped (boot [0x80, 0x14])).map (·.fault) = some (some ⟨.unhandledInstruction, 0x0200#16, 0x8014#16⟩) ∧
    (stepped { State.reset with pc := 0x0FFF#16 }).map (·.fault) = some (some ⟨.fetchBounds, 0x0FFF#16, 0x0000#16⟩) ∧
    (stepped { boot [0x23, 0x00] with sp := 16 }).map (·.fault) = some (some ⟨.stackOverflow, 0x0200#16, 0x2300#16⟩) ∧
    (stepped (boot [0x00, 0xEE])).map (·.fault) = some (some ⟨.stackUnderflow, 0x0200#16, 0x00EE#16⟩) := by
  decide

/-- A state, not the reset state, that meets the invariants: one held return address, a register set. -/
def inCall : State := { withReg 0#4 5#8 State.reset with pc := 0x300#16, sp := 1, stack := (Vector.replicate 16 0#16).set 0 0x0202#16 }

theorem inCall_inv : inCall.Inv where
  memCanonical := reset_mem_wf
  lowMemory a h := readByte_eq_some inCall (Nat.lt_trans h (by decide))
  pcBound := by decide
  stackBound := by decide
  indexZero := rfl
  delayZero := rfl
  soundZero := rfl
  screenClear k := by simp [inCall, withReg, State.pixel, State.reset]

theorem witness_EveryStepKeepsTheInvariants : inCall.Inv ∧ step inCall = .next { inCall with pc := 0x302#16 } :=
  ⟨inCall_inv, rfl⟩

theorem witness_EveryCommandKeepsTheInvariants :
    inCall.Inv ∧ perform (.load 0x1FF#12 0xAB#8) inCall = .next ⟨inCall, .stepOk, false⟩ := ⟨inCall_inv, rfl⟩

theorem witness_ReachableStatesMeetTheInvariants : Reachable { State.reset with pc := 0x202#16 } := ⟨[.step], rfl⟩

theorem witness_EveryCommandKeepsMemoryCanonical :
    Memory.wf [(0x200, 0x60#8), (0x201, 0x05#8)] ∧ (response .step (boot [0x60, 0x05])).isSome = true ∧
      (boot [0x60, 0x05]).mem = [(0x200, 0x60#8), (0x201, 0x05#8)] := by
  refine ⟨⟨by decide, by decide⟩, by decide⟩

theorem witness_FaultStaysUntilReset :
    halted.fault = some ⟨.unhandledInstruction, 0x0200#16, 0xFFFF#16⟩ ∧
      Command.reset ∉ [.step, .tick, .load 0xFFF#12 0x12#8, .setKey 3#4 true] := by decide

end Sys2Proof.Machine.Tests
end

section
/-! The opcode of two bytes, as a number and field by field (R33). -/

namespace Sys2Proof

/-- The byte at the lower address is the high half of the opcode (R33). -/
theorem joinBytes_toNat (lower higher : Byte) :
    (joinBytes lower higher).toNat = 256 * lower.toNat + higher.toNat := by
  rw [joinBytes, BitVec.toNat_append, ← Nat.shiftLeft_add_eq_or_of_lt higher.isLt, Nat.shiftLeft_eq,
    Nat.mul_comm]

theorem digit1_joinBytes (lower higher : Byte) :
    (digit1 (joinBytes lower higher)).toNat = lower.toNat / 16 := by
  rw [digit1, BitVec.extractLsb'_toNat, joinBytes_toNat, Nat.shiftRight_eq_div_pow]
  omega

theorem fieldX_joinBytes (lower higher : Byte) :
    (fieldX (joinBytes lower higher)).toNat = lower.toNat % 16 := by
  rw [fieldX, BitVec.extractLsb'_toNat, joinBytes_toNat, Nat.shiftRight_eq_div_pow]
  omega

theorem fieldY_joinBytes (lower higher : Byte) :
    (fieldY (joinBytes lower higher)).toNat = higher.toNat / 16 := by
  rw [fieldY, BitVec.extractLsb'_toNat, joinBytes_toNat, Nat.shiftRight_eq_div_pow]
  omega

theorem digit4_joinBytes (lower higher : Byte) :
    (digit4 (joinBytes lower higher)).toNat = higher.toNat % 16 := by
  rw [digit4, BitVec.extractLsb'_toNat, joinBytes_toNat, Nat.shiftRight_eq_div_pow]
  omega

@[simp] theorem fieldNN_joinBytes (lower higher : Byte) : fieldNN (joinBytes lower higher) = higher := by
  apply BitVec.eq_of_toNat_eq
  rw [fieldNN, BitVec.extractLsb'_toNat, joinBytes_toNat, Nat.shiftRight_eq_div_pow]
  omega

end Sys2Proof

namespace Sys2Proof.Machine

/-- Settles O29: a fetch in bounds joins the two bytes memory holds at `pc`, and `joinBytes` is big-endian. -/
theorem fetchIsBigEndian : Obligations.FetchIsBigEndian := by
  refine ⟨fun s hpc => ?_, by decide⟩
  have hlower := readByte_eq_some s (show s.pc.toNat < 4096 by omega)
  have hhigher := readByte_eq_some s (show s.pc.toNat + 1 < 4096 by omega)
  exact ⟨_, _, _, hlower, hhigher, fetchOpcode_eq_some s hpc, joinBytes_toNat _ _, digit1_joinBytes _ _,
    fieldX_joinBytes _ _, fieldY_joinBytes _ _, digit4_joinBytes _ _, fieldNN_joinBytes _ _⟩

end Sys2Proof.Machine
end

section
/-! The operand fields of an opcode as numbers (R47), and what a decoded instruction is. -/

namespace Sys2Proof

theorem fieldX_toNat (op : Opcode) : (fieldX op).toNat = op.toNat / 256 % 16 := by
  rw [fieldX, BitVec.extractLsb'_toNat, Nat.shiftRight_eq_div_pow]

theorem fieldY_toNat (op : Opcode) : (fieldY op).toNat = op.toNat / 16 % 16 := by
  rw [fieldY, BitVec.extractLsb'_toNat, Nat.shiftRight_eq_div_pow]

theorem fieldNN_toNat (op : Opcode) : (fieldNN op).toNat = op.toNat % 256 := by
  rw [fieldNN, BitVec.extractLsb'_toNat, Nat.shiftRight_zero]

theorem fieldNNN_toNat (op : Opcode) : (fieldNNN op).toNat = op.toNat % 4096 := by
  rw [fieldNNN, BitVec.extractLsb'_toNat, Nat.shiftRight_zero]

/-- Decoding answers the instruction of the row the opcode selects, its operands filled in from the opcode (R48). -/
theorem decode_eq_ok_iff (op : Opcode) (i : Instr) :
    decode op = .ok i ↔ ∃ r, findRow op = some r ∧ assembleOperands r.mnemonic op = i := by
  cases hrow : findRow op <;> simp [decode, hrow]

end Sys2Proof

namespace Sys2Proof.Machine

/-- Settles O3: a decoded instruction is its row's mnemonic with the opcode's fields, so the cases are the mnemonics. -/
theorem operandsAreSlicesOfTheOpcode : Obligations.OperandsAreSlicesOfTheOpcode := by
  refine ⟨fun op => ⟨fieldX_toNat op, fieldY_toNat op, fieldNN_toNat op, fieldNNN_toNat op, fun i hi => ?_⟩,
    fun nnn => ⟨targetOf_toNat nnn, ?_⟩⟩
  · obtain ⟨r, -, rfl⟩ := (decode_eq_ok_iff op i).mp hi
    cases r.mnemonic <;> simp [assembleOperands]
  · rw [targetOf_toNat]
    exact Nat.le_of_lt_succ nnn.isLt

end Sys2Proof.Machine
end

section
/-! The frame of every instruction, read off its effect, and of every command (R63, R90). -/

namespace Sys2Proof.Machine

variable {i : Instr} {s t : State}

/-- What no instruction writes (R63): memory, `I`, the key flags and the timers are as before. -/
structure SameUnwritten (s t : State) : Prop where
  mem : t.mem = s.mem
  i : t.i = s.i
  keys : t.keys = s.keys
  dt : t.dt = s.dt
  st : t.st = s.st

theorem SameUnwritten.sameMemory (h : SameUnwritten s t) : SameMemory s t := readByte_congr h.mem

/-! ## What an instruction's effect leaves unchanged -/

theorem Effect.sameUnwritten (e : Effect i s t) : SameUnwritten s t := by
  cases e <;> exact ⟨rfl, rfl, rfl, rfl, rfl⟩

theorem Effect.reg_eq {k : RegNum} (e : Effect i s t) (hk : destination i ≠ some k) : t.reg k = s.reg k := by
  cases e with
  | wrote x b hi => exact s.reg_setReg_other x k b fun hkx => hk (hkx ▸ hi)
  | _ => rfl

theorem Effect.pc_eq (e : Effect i s t) (hpc : writesPc i = false) : t.pc = s.pc := by
  cases e with
  | jumped a hi => exact absurd hi (by simp [hpc])
  | popped hi => exact absurd hpc (by simp [hi, writesPc])
  | pushed nnn hi => exact absurd hpc (by simp [hi, writesPc])
  | _ => rfl

theorem Effect.sameScreen (e : Effect i s t) (hcls : i ≠ .cls) : SameScreen s t := by
  cases e with
  | cleared hi => exact absurd hi hcls
  | _ => rfl

theorem Effect.sameStack (e : Effect i s t) (hret : i ≠ .ret) (hcall : ∀ nnn, i ≠ .call nnn) : SameStack s t := by
  cases e with
  | popped hi => exact absurd hi hret
  | pushed nnn hi => exact absurd hi (hcall nnn)
  | _ => exact ⟨rfl, rfl⟩

/-- A fault is latched only by a RET on an empty stack or a CALL on a full one (R72, R73). -/
theorem Effect.stack_bound_of_fault_ne (e : Effect i s t) (hf : t.fault ≠ s.fault) :
    (i = .ret ∧ s.sp.val = 0) ∨ ∃ nnn, i = .call nnn ∧ s.sp.val = 16 := by
  cases e with
  | underflowed hi hsp => exact .inl ⟨hi, hsp⟩
  | overflowed nnn hi hsp => exact .inr ⟨nnn, hi, hsp⟩
  | _ => exact absurd rfl hf

/-! ## What the commands leave unchanged -/

/-- Every Step answers a next state and writes none of what no instruction writes: Fetch's advance and the faults
write `pc` and the record only. -/
theorem step_sameUnwritten (s : State) : ∃ t, step s = .next t ∧ SameUnwritten s t := by
  rcases step_cases s with ⟨-, hs⟩ | ⟨-, -, hs⟩ | ⟨-, -, op, -, ⟨_, -, hs⟩ | ⟨i, -, hs⟩⟩
  · exact ⟨_, hs, rfl, rfl, rfl, rfl, rfl⟩
  · exact ⟨_, hs, rfl, rfl, rfl, rfl, rfl⟩
  · exact ⟨_, hs, rfl, rfl, rfl, rfl, rfl⟩
  · obtain ⟨t, hx, e⟩ := exec_cases i s.advancePc
    obtain ⟨hmem, hi, hkeys, hdt, hst⟩ := e.sameUnwritten
    exact ⟨t, hs.trans hx, hmem, hi, hkeys, hdt, hst⟩

theorem perform_step_of_next (h : step s = .next t) : perform .step s = .next ⟨t, stepResult s t, false⟩ := by
  simp [perform, h]

theorem perform_load_of_some {addr : Addr12} {data : Byte} (h : loadByte s addr data = some t) :
    perform (.load addr data) s = .next ⟨t, .stepOk, false⟩ := by
  simp [perform, h]

/-- A TICK writes the timers only (R112). -/
theorem timerTick_eq_update (s : State) :
    timerTick s = { s with dt := (timerTick s).dt, st := (timerTick s).st } := by
  rcases timerTick_cases s with ⟨-, ht⟩ | ⟨-, ht⟩ <;> rw [ht]

/-- Settles O26: each instruction's part is read off its effect, and the commands are taken one by one. -/
theorem operationsWriteOnlyWhatTheyName : Obligations.OperationsWriteOnlyWhatTheyName := by
  refine ⟨fun i s => ?_, fun c s => ?_⟩
  · obtain ⟨t, hx, e⟩ := exec_cases i s
    have ⟨hmem, hi, hkeys, hdt, hst⟩ := e.sameUnwritten
    exact ⟨t, hx, fun _ => e.reg_eq, e.pc_eq, e.sameUnwritten.sameMemory, hmem, hi, hkeys, hdt, hst,
      e.sameScreen, e.sameStack, e.stack_bound_of_fault_ne⟩
  · cases c with
    | idle => exact ⟨_, rfl, rfl⟩
    | reset => exact ⟨_, rfl, rfl⟩
    | step =>
      obtain ⟨t, hs, h⟩ := step_sameUnwritten s
      exact ⟨_, perform_step_of_next hs, h.sameMemory, h.mem, h.i, h.keys, h.dt, h.st⟩
    | tick => exact ⟨_, rfl, timerTick_eq_update s⟩
    | load addr data =>
      rcases loadByte_cases s addr data with ⟨-, hl⟩ | ⟨-, hl⟩
      · exact ⟨_, perform_load_of_some hl, rfl⟩
      · exact ⟨_, perform_load_of_some hl, rfl⟩
    | setKey k b => exact ⟨_, rfl, rfl⟩

end Sys2Proof.Machine
end

section
/-! NOP and CLS (R70, R71): the Step that runs a decoded instruction, and what their effects leave unchanged. -/

namespace Sys2Proof.Machine

/-- The opcode of a Fetch is the two bytes that memory holds at `pc` (R60 line 4, R33). -/
theorem fetchOpcode_of_readByte {s : State} {lower higher : Byte} (hlower : readByte s s.pc.toNat = some lower)
    (hhigher : readByte s (s.pc.toNat + 1) = some higher) : fetchOpcode s = some (joinBytes lower higher) := by
  simp [fetchOpcode, hlower, hhigher]

/-- A Step that is neither held nor out of bounds and fetches an instruction runs it after the advance (R60). -/
theorem step_eq_exec {s : State} {op : Opcode} {i : Instr} (hf : s.fault = none) (hpc : s.pc.toNat ≤ 4094)
    (hop : fetchOpcode s = some op) (hi : decode op = .ok i) : step s = exec i s.advancePc := by
  simp [step, s.halted_eq_false_iff.mpr hf, (fetchInBounds_iff s).mpr hpc, hop, hi]

theorem onlyPcMayChange_setPc (s : State) (a : Word) : OnlyPcMayChange s (s.setPc a) :=
  ⟨s.reg_setPc a, readByte_congr (s.setPc_mem a), ⟨rfl, rfl⟩, ⟨rfl, rfl, rfl, rfl, rfl⟩, rfl⟩

theorem onlyPcMayChange_advancePc (s : State) : OnlyPcMayChange s s.advancePc :=
  onlyPcMayChange_setPc s (s.pc + 2#16)

theorem exec_nop (s : State) : exec .nop s = .next s := rfl

theorem exec_cls (s : State) : exec .cls s = .next s.clearScreen := rfl

theorem encodedAs_nop : EncodedAs 0x0000 .nop := rfl

theorem encodedAs_cls : EncodedAs 0x00E0 .cls := rfl

/-- Settles O9: a Step that fetches NOP leaves the state Fetch's advance made, at an odd `pc` as at an even one. -/
theorem nopChangesNothing : Obligations.NopChangesNothing := by
  refine ⟨encodedAs_nop, exec_nop, fun s hf hpc hlower hhigher => ?_⟩
  have hstep : step s = .next s.advancePc :=
    step_eq_exec hf hpc (fetchOpcode_of_readByte hlower hhigher) encodedAs_nop
  exact ⟨s.advancePc, hstep, advancePc_toNat s hpc, onlyPcMayChange_advancePc s⟩

/-- Settles O10: CLS leaves `clearScreen` of the state, which writes all pixels and no other field. -/
theorem clsClearsTheScreen : Obligations.ClsClearsTheScreen := by
  refine ⟨encodedAs_cls, fun s => ⟨s.clearScreen, exec_cls s, s.pixel_clearScreen, s.clearScreen_pc, ?_⟩⟩
  exact ⟨s.reg_clearScreen, readByte_congr s.clearScreen_mem, ⟨rfl, rfl⟩, rfl, rfl, rfl, rfl, rfl⟩

end Sys2Proof.Machine
end

section
/-! The row an opcode selects (R48, R50), and from it the value of an encoded instruction. -/

namespace Sys2Proof

/-- Two rows that match one opcode agree where both masks read it (R50). -/
theorem pattern_and_mask_comm_of_rowMatches {r q : OpcodeRow} {op : Opcode} (hr : rowMatches r op = true)
    (hq : rowMatches q op = true) : r.pattern &&& q.mask = q.pattern &&& r.mask := by
  have hr' : op &&& r.mask = r.pattern := beq_iff_eq.mp hr
  have hq' : op &&& q.mask = q.pattern := beq_iff_eq.mp hq
  rw [← hr', ← hq', BitVec.and_assoc, BitVec.and_assoc, BitVec.and_comm r.mask]

/-- Of the rows of the map, no two agree where both masks read (R50). -/
theorem opcodeTable_separated : ∀ r ∈ opcodeTable, ∀ q ∈ opcodeTable,
    r.pattern &&& q.mask = q.pattern &&& r.mask → r = q := by decide

/-- An opcode selects the row of the map that matches it, wherever the row stands (R48, R50). -/
theorem findRow_eq_some_of_rowMatches {r : OpcodeRow} {op : Opcode} (hmem : r ∈ opcodeTable)
    (hr : rowMatches r op = true) : findRow op = some r := by
  cases hfind : findRow op with
  | none => exact absurd hr (List.find?_eq_none.mp hfind r hmem)
  | some q =>
    have hq : rowMatches q op = true := List.find?_some (p := fun row => rowMatches row op) hfind
    have hqr := opcodeTable_separated q (List.mem_of_find?_eq_some hfind) r hmem
      (pattern_and_mask_comm_of_rowMatches hq hr)
    rw [hqr]

/-- The operands of an instruction are the fields of its encoding (R46, R47). -/
theorem assembleOperands_encode (i : Instr) : assembleOperands (mnemonicOf i) (encode i) = i := by
  cases i <;> simp [assembleOperands, mnemonicOf, encode]

/-- An instruction whose encoding lies in its own row is what that encoding decodes to. -/
theorem decode_encode_of_encodesInRow {i : Instr} (h : Laws.EncodesInRow.Statement i) : decode (encode i) = .ok i := by
  obtain ⟨r, hmem, hmnemonic, hr⟩ := h
  refine (decode_eq_ok_iff _ _).mpr ⟨r, findRow_eq_some_of_rowMatches hmem hr, ?_⟩
  rw [hmnemonic, assembleOperands_encode]

end Sys2Proof

namespace Sys2Proof.Machine

/-- The value of an instruction's encoding is a word that decodes to it. -/
theorem encodedAs_of_encode_toNat {i : Instr} {w : Nat} (h : Laws.EncodesInRow.Statement i)
    (hw : (encode i).toNat = w) : EncodedAs w i := by
  rw [EncodedAs, ← hw, BitVec.ofNat_toNat, BitVec.setWidth_eq]
  exact decode_encode_of_encodesInRow h

end Sys2Proof.Machine
end

section
/-! JMP (R75): its encoding, and that it writes `pc` alone. -/

namespace Sys2Proof.Machine

theorem encodedAs_jmp (nnn : Addr12) : EncodedAs (0x1000 + nnn.toNat) (.jmp nnn) :=
  encodedAs_of_encode_toNat (Laws.EncodesInRow.jmp nnn) (formatA_toNat 0x1#4 nnn)

theorem exec_jmp (nnn : Addr12) (s : State) : exec (.jmp nnn) s = .next (s.setPc (targetOf nnn)) := rfl

/-- Settles O11: JMP leaves `setPc` of the zero-extended target, which writes `pc` and no other field. -/
theorem jmpSetsPc : Obligations.JmpSetsPc := fun nnn =>
  ⟨encodedAs_jmp nnn, fun s =>
    ⟨s.setPc (targetOf nnn), exec_jmp nnn s, targetOf_toNat nnn, onlyPcMayChange_setPc s (targetOf nnn)⟩⟩

end Sys2Proof.Machine
end

section
/-! The skips (R77): each is `skipIf` of its condition, and the Step that runs one reads no byte but the two at `pc`. -/

namespace Sys2Proof.Machine

/-! ## Each skip is `skipIf` of its condition -/

theorem exec_skipEqImm (x : RegNum) (nn : Byte) (s : State) :
    exec (.skipEqImm x nn) s = .next (skipIf (decide (s.reg x = nn)) s) := rfl

theorem exec_skipNeqImm (x : RegNum) (nn : Byte) (s : State) :
    exec (.skipNeqImm x nn) s = .next (skipIf (decide (s.reg x ≠ nn)) s) := by
  rw [decide_not]
  rfl

theorem exec_skipEqReg (x y : RegNum) (s : State) :
    exec (.skipEqReg x y) s = .next (skipIf (decide (s.reg x = s.reg y)) s) := rfl

/-- A skip's condition is about the registers alone: taken or not in `s`, it is so in every `u` with the registers of `s`. -/
theorem exec_skip_of_sameRegs {s u : State} {x y : RegNum} {nn : Byte} {i : Instr} {taken : Bool}
    (hskip : (i, taken) ∈ [(Instr.skipEqImm x nn, decide (s.reg x = nn)),
      (.skipNeqImm x nn, decide (s.reg x ≠ nn)), (.skipEqReg x y, decide (s.reg x = s.reg y))])
    (hregs : SameRegs s u) : exec i u = .next (skipIf taken u) := by
  simp only [List.mem_cons, List.not_mem_nil, or_false, Prod.mk.injEq] at hskip
  rcases hskip with ⟨rfl, rfl⟩ | ⟨rfl, rfl⟩ | ⟨rfl, rfl⟩
  · rw [exec_skipEqImm, hregs x]
  · rw [exec_skipNeqImm, hregs x]
  · rw [exec_skipEqReg, hregs x, hregs y]

/-! ## What a skip leaves after Fetch's advance -/

/-- From an instruction at `p`, fetched in bounds, a skip leaves `p + 4` or `p + 2`, and neither sum overflows (R15, R77). -/
theorem skipIf_advancePc_toNat (taken : Bool) {s : State} (hpc : s.pc.toNat ≤ 4094) :
    (skipIf taken s.advancePc).pc.toNat = if taken then s.pc.toNat + 4 else s.pc.toNat + 2 := by
  have hadvance := advancePc_toNat s hpc
  rw [skipIf_eq]
  cases taken with
  | false => exact hadvance
  | true =>
    rw [State.setPc_pc, if_pos rfl, if_pos rfl, BitVec.toNat_add, hadvance, BitVec.toNat_ofNat]
    omega

theorem onlyPcMayChange_skipIf_advancePc (taken : Bool) (s : State) :
    OnlyPcMayChange s (skipIf taken s.advancePc) := by
  rw [skipIf_eq]
  exact onlyPcMayChange_setPc s _

theorem skipIf_fault (taken : Bool) (s : State) : (skipIf taken s).fault = s.fault := by
  rw [skipIf_eq, State.setPc_fault]

/-- A skip carries the memory along, whatever it holds. -/
theorem skipIf_advancePc_withMem (taken : Bool) (s : State) (m : Memory) :
    skipIf taken ({ s with mem := m } : State).advancePc = { skipIf taken s.advancePc with mem := m } := by
  cases taken <;> rfl

/-! ## The Step -/

/-- A Fetch reads no byte of memory but the two at `pc` (R33). -/
theorem fetchOpcode_withMem {s : State} {m : Memory}
    (hlower : readByte { s with mem := m } s.pc.toNat = readByte s s.pc.toNat)
    (hhigher : readByte { s with mem := m } (s.pc.toNat + 1) = readByte s (s.pc.toNat + 1)) :
    fetchOpcode { s with mem := m } = fetchOpcode s := by
  simp only [fetchOpcode, hlower, hhigher]

/-- Settles O56: the Step is `skipIf` after the advance. With other memory that agrees at `pc` the Fetch gives the same
opcode and the registers are the same, so the same skip is taken. -/
theorem skipsStepOverTwoUnreadBytes : Obligations.SkipsStepOverTwoUnreadBytes := by
  intro s x y nn i taken op hskip hfault hpc hop hi
  refine ⟨skipIf taken s.advancePc, ?_, skipIf_advancePc_toNat taken hpc, onlyPcMayChange_skipIf_advancePc taken s,
    (skipIf_fault taken s.advancePc).trans hfault, fun m hlower hhigher => ?_⟩
  · rw [step_eq_exec hfault hpc hop hi]
    exact exec_skip_of_sameRegs hskip s.reg_advancePc
  · rw [step_eq_exec (s := { s with mem := m }) hfault hpc ((fetchOpcode_withMem hlower hhigher).trans hop) hi,
      ← skipIf_advancePc_withMem]
    exact exec_skip_of_sameRegs hskip fun _ => rfl

end Sys2Proof.Machine
end

section
/-! LOAD_IMM and ADD_IMM (R81, R82): their encodings, and that each writes `V[x]` alone. -/

namespace Sys2Proof.Machine

theorem onlyRegisterMayChange_setReg (s : State) (x : RegNum) (b : Byte) : OnlyRegisterMayChange x s (s.setReg x b) :=
  ⟨s.setReg_pc x b, fun k hk => s.reg_setReg_other x k b hk, readByte_congr (s.setReg_mem x b), ⟨rfl, rfl⟩,
    ⟨rfl, rfl, rfl, rfl, rfl⟩, s.setReg_screen x b⟩

theorem encodedAs_loadImm (x : RegNum) (nn : Byte) : EncodedAs (0x6000 + 256 * x.toNat + nn.toNat) (.loadImm x nn) :=
  encodedAs_of_encode_toNat (Laws.EncodesInRow.loadImm x nn) (formatXN_toNat 0x6#4 x nn)

theorem encodedAs_addImm (x : RegNum) (nn : Byte) : EncodedAs (0x7000 + 256 * x.toNat + nn.toNat) (.addImm x nn) :=
  encodedAs_of_encode_toNat (Laws.EncodesInRow.addImm x nn) (formatXN_toNat 0x7#4 x nn)

theorem exec_loadImm (x : RegNum) (nn : Byte) (s : State) : exec (.loadImm x nn) s = .next (s.setReg x nn) := rfl

theorem exec_addImm (x : RegNum) (nn : Byte) (s : State) :
    exec (.addImm x nn) s = .next (s.setReg x (addWrap (s.reg x) nn)) := rfl

theorem addWrap_toNat (a b : Byte) : (addWrap a b).toNat = (a.toNat + b.toNat) % 256 := BitVec.toNat_add a b

/-- Settles O19: LOAD_IMM leaves `setReg` of `nn`, which writes `V[x]` and no other field. -/
theorem loadImmSetsTheRegister : Obligations.LoadImmSetsTheRegister := fun x nn =>
  ⟨encodedAs_loadImm x nn, fun s =>
    ⟨s.setReg x nn, exec_loadImm x nn s, s.reg_setReg_same x nn, onlyRegisterMayChange_setReg s x nn⟩⟩

/-- Settles O20: ADD_IMM leaves `setReg` of the wrapped sum. A second one adds to that sum, and reducing modulo 256 before
the second addition does not change its value modulo 256. -/
theorem addImmAddsModulo256 : Obligations.AddImmAddsModulo256 := by
  refine fun x nn => ⟨encodedAs_addImm x nn, fun s => ⟨_, exec_addImm x nn s, ?_, onlyRegisterMayChange_setReg s x _,
    fun nn2 => ⟨_, exec_addImm x nn2 _, ?_⟩⟩⟩
  · rw [State.reg_setReg_same, addWrap_toNat]
  · rw [State.reg_setReg_same, State.reg_setReg_same, addWrap_toNat, addWrap_toNat, Nat.mod_add_mod]

end Sys2Proof.Machine
end

section
/-! Opcodes of no row of the opcode map (R52), told by digit1 and digit4. -/

namespace Sys2Proof

/-- A row that matches an opcode agrees with the opcode's digit1 and digit4 wherever its mask reads them (R49). -/
theorem pattern_and_digits14_of_rowMatches {r : OpcodeRow} {op : Opcode} (h : rowMatches r op = true) :
    r.pattern &&& 0xF00F#16 = formatXY (digit1 op) 0#4 0#4 (digit4 op) &&& r.mask := by
  have hop : op &&& r.mask = r.pattern := beq_iff_eq.mp h
  rw [← hop, ← mask_digits14, BitVec.and_assoc, BitVec.and_comm r.mask, BitVec.and_assoc]

/-- An opcode of format XY selects no row where its digit1 and digit4 rule out every row. -/
theorem findRow_formatXY_eq_none {d f : BitVec 4} (x y : RegNum)
    (h : ∀ r ∈ opcodeTable, r.pattern &&& 0xF00F#16 ≠ formatXY d 0#4 0#4 f &&& r.mask) :
    findRow (formatXY d x y f) = none := by
  refine List.find?_eq_none.mpr fun r hr hmatch => h r hr ?_
  rw [pattern_and_digits14_of_rowMatches hmatch, digit1_formatXY, digit4_formatXY]

/-- Of the rows of the map, none has digit1 = 8 and a digit4 of 4 or more. -/
theorem opcodeTable_excludes_digit4_from_4 : ∀ f : BitVec 4, 4 ≤ f.toNat → ∀ r ∈ opcodeTable,
    r.pattern &&& 0xF00F#16 ≠ formatXY 0x8#4 0#4 0#4 f &&& r.mask := by decide

end Sys2Proof

namespace Sys2Proof.Machine

/-- The value of an opcode that selects no row is an illegal word (R52). -/
theorem illegal_of_findRow_eq_none {op : Opcode} {w : Nat} (hrow : findRow op = none) (hw : op.toNat = w) :
    Illegal w := by
  rw [Illegal, ← hw, BitVec.ofNat_toNat, BitVec.setWidth_eq]
  simp [decode, hrow]

end Sys2Proof.Machine
end

section
/-! COPY, OR, AND and XOR (R84 to R88): their encodings, and that each is `registerOp` of its function. -/

namespace Sys2Proof.Machine

/-! ## What `registerOp` leaves (R88) -/

/-- The result is the function of the two values read before the write. -/
theorem reg_registerOp_same (f : Byte → Byte → Byte) (x y : RegNum) (s : State) :
    (registerOp f x y s).reg x = f (s.reg x) (s.reg y) := s.reg_setReg_same x _

theorem onlyRegisterMayChange_registerOp (f : Byte → Byte → Byte) (x y : RegNum) (s : State) :
    OnlyRegisterMayChange x s (registerOp f x y s) := onlyRegisterMayChange_setReg s x _

theorem OnlyRegisterMayChange.reg_eq {x k : RegNum} {s t : State} (h : OnlyRegisterMayChange x s t) (hk : k ≠ x) :
    t.reg k = s.reg k := by
  obtain ⟨-, hregs, -⟩ := h
  exact hregs k hk

/-! ## Encodings -/

/-- The value of an opcode of digit1 = 8, format XY (R46). -/
theorem formatXY_8_toNat (x y : RegNum) (f : BitVec 4) :
    (formatXY 0x8#4 x y f).toNat = 0x8000 + f.toNat + 256 * x.toNat + 16 * y.toNat := by
  rw [formatXY_toNat, BitVec.toNat_ofNat]
  omega

theorem encodedAs_copy (x y : RegNum) : EncodedAs (0x8000 + 256 * x.toNat + 16 * y.toNat) (.copy x y) :=
  encodedAs_of_encode_toNat (Laws.EncodesInRow.copy x y) (formatXY_8_toNat x y 0x0#4)

theorem encodedAs_orReg (x y : RegNum) : EncodedAs (0x8001 + 256 * x.toNat + 16 * y.toNat) (.orReg x y) :=
  encodedAs_of_encode_toNat (Laws.EncodesInRow.orReg x y) (formatXY_8_toNat x y 0x1#4)

theorem encodedAs_andReg (x y : RegNum) : EncodedAs (0x8002 + 256 * x.toNat + 16 * y.toNat) (.andReg x y) :=
  encodedAs_of_encode_toNat (Laws.EncodesInRow.andReg x y) (formatXY_8_toNat x y 0x2#4)

theorem encodedAs_xorReg (x y : RegNum) : EncodedAs (0x8003 + 256 * x.toNat + 16 * y.toNat) (.xorReg x y) :=
  encodedAs_of_encode_toNat (Laws.EncodesInRow.xorReg x y) (formatXY_8_toNat x y 0x3#4)

/-- 0x8XY4 to 0x8XYF are illegal (R52, R88). -/
theorem illegal_of_digit4_from_4 (x y : RegNum) {d : Nat} (hlow : 4 ≤ d) (hhigh : d ≤ 15) :
    Illegal (0x8000 + 256 * x.toNat + 16 * y.toNat + d) := by
  have hd : (BitVec.ofNat 4 d).toNat = d := (BitVec.toNat_ofNat d 4).trans (Nat.mod_eq_of_lt (by omega))
  have hrow := findRow_formatXY_eq_none x y (opcodeTable_excludes_digit4_from_4 (BitVec.ofNat 4 d) (by omega))
  exact illegal_of_findRow_eq_none hrow (by rw [formatXY_8_toNat, hd]; omega)

/-! ## Each instruction is `registerOp` of its function -/

theorem exec_copy (x y : RegNum) (s : State) : exec (.copy x y) s = .next (registerOp (fun _ b => b) x y s) := rfl

theorem exec_orReg (x y : RegNum) (s : State) : exec (.orReg x y) s = .next (registerOp bitOr x y s) := rfl

theorem exec_andReg (x y : RegNum) (s : State) : exec (.andReg x y) s = .next (registerOp bitAnd x y s) := rfl

theorem exec_xorReg (x y : RegNum) (s : State) : exec (.xorReg x y) s = .next (registerOp bitXor x y s) := rfl

theorem exec_registerFamily {x y : RegNum} {i : Instr} {f : Byte → Byte → Byte}
    (hif : (i, f) ∈ [(Instr.copy x y, fun _ b => b), (.orReg x y, fun a b => a ||| b),
      (.andReg x y, fun a b => a &&& b), (.xorReg x y, fun a b => a ^^^ b)])
    (s : State) : exec i s = .next (registerOp f x y s) := by
  simp only [List.mem_cons, List.not_mem_nil, or_false, Prod.mk.injEq] at hif
  rcases hif with ⟨rfl, rfl⟩ | ⟨rfl, rfl⟩ | ⟨rfl, rfl⟩ | ⟨rfl, rfl⟩
  · exact exec_copy x y s
  · exact exec_orReg x y s
  · exact exec_andReg x y s
  · exact exec_xorReg x y s

/-! ## The functions, bit by bit -/

theorem bitOr_getLsbD (a b : Byte) (k : Nat) : (bitOr a b).getLsbD k = (a.getLsbD k || b.getLsbD k) :=
  BitVec.getLsbD_or

theorem bitAnd_getLsbD (a b : Byte) (k : Nat) : (bitAnd a b).getLsbD k = (a.getLsbD k && b.getLsbD k) :=
  BitVec.getLsbD_and

theorem bitXor_getLsbD (a b : Byte) (k : Nat) : (bitXor a b).getLsbD k = (a.getLsbD k ^^ b.getLsbD k) :=
  BitVec.getLsbD_xor

theorem bitXor_self (a : Byte) : bitXor a a = 0x00#8 := BitVec.xor_self

/-! ## The obligations -/

/-- Settles O25: each of the four is `registerOp` of its function, and no row of the map has digit1 = 8 with another
digit4. -/
theorem registerFamilyWritesOnlyVx : Obligations.RegisterFamilyWritesOnlyVx := by
  refine fun x y => ⟨fun i f hif s => ?_, fun d hlow hhigh => illegal_of_digit4_from_4 x y hlow hhigh⟩
  have hframe := onlyRegisterMayChange_registerOp f x y s
  exact ⟨_, exec_registerFamily hif s, reg_registerOp_same f x y s, hframe, fun hx => hframe.reg_eq (Ne.symm hx)⟩

/-- Settles O21: `V[y]` keeps its value, as the register not written or, where y is x, as the value copied onto itself. -/
theorem copyCopiesTheRegister : Obligations.CopyCopiesTheRegister := by
  refine fun x y => ⟨encodedAs_copy x y, fun s => ?_⟩
  have hsame := reg_registerOp_same (fun _ b => b) x y s
  have hframe := onlyRegisterMayChange_registerOp (fun _ b => b) x y s
  refine ⟨_, exec_copy x y s, hsame, ?_, hframe⟩
  by_cases hyx : y = x
  · subst hyx
    exact hsame
  · exact hframe.reg_eq hyx

/-- Settles O22: `registerOp` of `bitOr`, read bit by bit. -/
theorem orIsBitwise : Obligations.OrIsBitwise := by
  refine fun x y => ⟨encodedAs_orReg x y, fun s =>
    ⟨_, exec_orReg x y s, fun k => ?_, onlyRegisterMayChange_registerOp bitOr x y s⟩⟩
  rw [reg_registerOp_same, bitOr_getLsbD]

/-- Settles O23: `registerOp` of `bitAnd`, read bit by bit. -/
theorem andIsBitwise : Obligations.AndIsBitwise := by
  refine fun x y => ⟨encodedAs_andReg x y, fun s =>
    ⟨_, exec_andReg x y s, fun k => ?_, onlyRegisterMayChange_registerOp bitAnd x y s⟩⟩
  rw [reg_registerOp_same, bitAnd_getLsbD]

/-- Settles O24: `registerOp` of `bitXor`, read bit by bit; a byte with itself gives 0. -/
theorem xorIsBitwise : Obligations.XorIsBitwise := by
  refine fun x y => ⟨encodedAs_xorReg x y, fun s =>
    ⟨_, exec_xorReg x y s, fun k => ?_, fun hxy => ?_, onlyRegisterMayChange_registerOp bitXor x y s⟩⟩
  · rw [reg_registerOp_same, bitXor_getLsbD]
  · rw [reg_registerOp_same, hxy, bitXor_self]

end Sys2Proof.Machine
end

section
/-! Decoding and encoding are inverse (R49 to R53): an opcode is put together again from the fields of its format, its
digits fixed by the row it selects. -/

namespace Sys2Proof

/-! ## An opcode from its fields (R46, R47) -/

theorem digit1_toNat (op : Opcode) : (digit1 op).toNat = op.toNat / 4096 % 16 := by
  rw [digit1, BitVec.extractLsb'_toNat, Nat.shiftRight_eq_div_pow]

theorem digit4_toNat (op : Opcode) : (digit4 op).toNat = op.toNat % 16 := by
  rw [digit4, BitVec.extractLsb'_toNat, Nat.shiftRight_zero]

theorem formatA_fields (op : Opcode) : formatA (digit1 op) (fieldNNN op) = op := by
  apply BitVec.eq_of_toNat_eq
  rw [formatA_toNat, digit1_toNat, fieldNNN_toNat]
  omega

theorem formatXN_fields (op : Opcode) : formatXN (digit1 op) (fieldX op) (fieldNN op) = op := by
  apply BitVec.eq_of_toNat_eq
  rw [formatXN_toNat, digit1_toNat, fieldX_toNat, fieldNN_toNat]
  omega

theorem formatXY_fields (op : Opcode) : formatXY (digit1 op) (fieldX op) (fieldY op) (digit4 op) = op := by
  apply BitVec.eq_of_toNat_eq
  rw [formatXY_toNat, digit1_toNat, fieldX_toNat, fieldY_toNat, digit4_toNat]
  omega

/-! ## What a row fixes of an opcode it matches (R49) -/

theorem pattern_eq_of_rowMatches {m : Mnemonic} {p op : Opcode} (h : rowMatches ⟨m, 0xFFFF#16, p⟩ op = true) :
    p = op := by
  have hmask : op &&& 0xFFFF#16 = p := beq_iff_eq.mp h
  rw [← hmask, show 0xFFFF#16 = BitVec.allOnes 16 from rfl, BitVec.and_allOnes]

theorem digit1_of_rowMatches {m : Mnemonic} {d : BitVec 4} {op : Opcode}
    (h : rowMatches ⟨m, 0xF000#16, formatA d 0#12⟩ op = true) : digit1 op = d := by
  have hmask : formatA (digit1 op) 0#12 = formatA d 0#12 := (mask_digit1 op).symm.trans (beq_iff_eq.mp h)
  simpa using congrArg digit1 hmask

theorem digits14_of_rowMatches {m : Mnemonic} {d f : BitVec 4} {op : Opcode}
    (h : rowMatches ⟨m, 0xF00F#16, formatXY d 0#4 0#4 f⟩ op = true) : digit1 op = d ∧ digit4 op = f := by
  have hmask : formatXY (digit1 op) 0#4 0#4 (digit4 op) = formatXY d 0#4 0#4 f :=
    (mask_digits14 op).symm.trans (beq_iff_eq.mp h)
  exact ⟨by simpa using congrArg digit1 hmask, by simpa using congrArg digit4 hmask⟩

theorem formatA_of_rowMatches {m : Mnemonic} {d : BitVec 4} {op : Opcode}
    (h : rowMatches ⟨m, 0xF000#16, formatA d 0#12⟩ op = true) : formatA d (fieldNNN op) = op := by
  rw [← digit1_of_rowMatches h, formatA_fields]

theorem formatXN_of_rowMatches {m : Mnemonic} {d : BitVec 4} {op : Opcode}
    (h : rowMatches ⟨m, 0xF000#16, formatA d 0#12⟩ op = true) : formatXN d (fieldX op) (fieldNN op) = op := by
  rw [← digit1_of_rowMatches h, formatXN_fields]

theorem formatXY_of_rowMatches {m : Mnemonic} {d f : BitVec 4} {op : Opcode}
    (h : rowMatches ⟨m, 0xF00F#16, formatXY d 0#4 0#4 f⟩ op = true) : formatXY d (fieldX op) (fieldY op) f = op := by
  obtain ⟨rfl, rfl⟩ := digits14_of_rowMatches h
  exact formatXY_fields op

/-! ## Row by row -/

/-- The instruction of a row that matches an opcode encodes to that opcode: the row fixes every bit that is no operand. -/
theorem encode_assembleOperands_of_rowMatches {r : OpcodeRow} {op : Opcode} (hmem : r ∈ opcodeTable)
    (h : rowMatches r op = true) : encode (assembleOperands r.mnemonic op) = op := by
  simp only [opcodeTable, List.mem_cons, List.not_mem_nil, or_false] at hmem
  rcases hmem with rfl | rfl | rfl | rfl | rfl | rfl | rfl | rfl | rfl | rfl | rfl | rfl | rfl | rfl
  case inl | inr.inl | inr.inr.inl => exact pattern_eq_of_rowMatches h
  · exact formatA_of_rowMatches (d := 0x1#4) h
  · exact formatA_of_rowMatches (d := 0x2#4) h
  · exact formatXN_of_rowMatches (d := 0x3#4) h
  · exact formatXN_of_rowMatches (d := 0x4#4) h
  · exact formatXY_of_rowMatches (d := 0x5#4) (f := 0x0#4) h
  · exact formatXN_of_rowMatches (d := 0x6#4) h
  · exact formatXN_of_rowMatches (d := 0x7#4) h
  · exact formatXY_of_rowMatches (d := 0x8#4) (f := 0x0#4) h
  · exact formatXY_of_rowMatches (d := 0x8#4) (f := 0x1#4) h
  · exact formatXY_of_rowMatches (d := 0x8#4) (f := 0x2#4) h
  · exact formatXY_of_rowMatches (d := 0x8#4) (f := 0x3#4) h

/-- The encoding of every instruction lies in the row that bears its mnemonic (R49). -/
theorem encodesInRow (i : Instr) : Laws.EncodesInRow.Statement i := by
  cases i with
  | nop => exact Laws.EncodesInRow.nop
  | cls => exact Laws.EncodesInRow.cls
  | ret => exact Laws.EncodesInRow.ret
  | jmp nnn => exact Laws.EncodesInRow.jmp nnn
  | call nnn => exact Laws.EncodesInRow.call nnn
  | skipEqImm x nn => exact Laws.EncodesInRow.skipEqImm x nn
  | skipNeqImm x nn => exact Laws.EncodesInRow.skipNeqImm x nn
  | skipEqReg x y => exact Laws.EncodesInRow.skipEqReg x y
  | loadImm x nn => exact Laws.EncodesInRow.loadImm x nn
  | addImm x nn => exact Laws.EncodesInRow.addImm x nn
  | copy x y => exact Laws.EncodesInRow.copy x y
  | orReg x y => exact Laws.EncodesInRow.orReg x y
  | andReg x y => exact Laws.EncodesInRow.andReg x y
  | xorReg x y => exact Laws.EncodesInRow.xorReg x y

theorem decode_encode (i : Instr) : decode (encode i) = .ok i := decode_encode_of_encodesInRow (encodesInRow i)

theorem encode_of_decode {op : Opcode} {i : Instr} (h : decode op = .ok i) : encode i = op := by
  obtain ⟨r, hrow, rfl⟩ := (decode_eq_ok_iff op i).mp h
  exact encode_assembleOperands_of_rowMatches (List.mem_of_find?_eq_some hrow)
    (List.find?_some (p := fun row => rowMatches row op) hrow)

/-- Settles O4: the encoding lies in the instruction's own row, and its fields are the operands. -/
theorem decodeInvertsEncode : Obligations.DecodeInvertsEncode := decode_encode

/-- Settles O5: the selected row fixes the digits, and the operands are the opcode's other bits. -/
theorem encodeInvertsDecode : Obligations.EncodeInvertsDecode := fun _ _ => encode_of_decode

/-! ## The opcode map (R49, R50, R52) -/

theorem decode_of_rowMatches {op : Opcode} (r : OpcodeRow) (hmem : r ∈ opcodeTable) (h : op &&& r.mask = r.pattern) :
    decode op = .ok (assembleOperands r.mnemonic op) :=
  (decode_eq_ok_iff _ _).mpr ⟨r, findRow_eq_some_of_rowMatches hmem (beq_iff_eq.mpr h), rfl⟩

/-- An opcode of no row is illegal (R52). -/
theorem decode_of_no_row {op : Opcode} (h : ∀ r ∈ opcodeTable, op &&& r.mask ≠ r.pattern) :
    decode op = .error (.unhandledInstruction op) := by
  have hrow : findRow op = none := List.find?_eq_none.mpr fun r hr hmatch => h r hr (beq_iff_eq.mp hmatch)
  simp [decode, hrow]

theorem ofNat_eq_fieldX (op : Opcode) : BitVec.ofNat 4 (op.toNat / 256) = fieldX op :=
  BitVec.eq_of_toNat_eq ((BitVec.toNat_ofNat _ _).trans (fieldX_toNat op).symm)

theorem ofNat_eq_fieldY (op : Opcode) : BitVec.ofNat 4 (op.toNat / 16) = fieldY op :=
  BitVec.eq_of_toNat_eq ((BitVec.toNat_ofNat _ _).trans (fieldY_toNat op).symm)

theorem ofNat_eq_fieldNN (op : Opcode) : BitVec.ofNat 8 op.toNat = fieldNN op :=
  BitVec.eq_of_toNat_eq ((BitVec.toNat_ofNat _ _).trans (fieldNN_toNat op).symm)

theorem ofNat_eq_fieldNNN (op : Opcode) : BitVec.ofNat 12 op.toNat = fieldNNN op :=
  BitVec.eq_of_toNat_eq ((BitVec.toNat_ofNat _ _).trans (fieldNNN_toNat op).symm)

/-- Settles O2: a matching row is the one the decoder selects, and with every row excluded it selects none. -/
theorem decodeFollowsTheOpcodeMap : Obligations.DecodeFollowsTheOpcodeMap := by
  intro op
  rw [ofNat_eq_fieldX, ofNat_eq_fieldY, ofNat_eq_fieldNN, ofNat_eq_fieldNNN]
  refine ⟨fun h => h ▸ rfl, fun h => h ▸ rfl, fun h => h ▸ rfl,
    decode_of_rowMatches ⟨.JMP, 0xF000#16, 0x1000#16⟩ (by decide),
    decode_of_rowMatches ⟨.CALL, 0xF000#16, 0x2000#16⟩ (by decide),
    decode_of_rowMatches ⟨.SKIP_EQ_IMM, 0xF000#16, 0x3000#16⟩ (by decide),
    decode_of_rowMatches ⟨.SKIP_NEQ_IMM, 0xF000#16, 0x4000#16⟩ (by decide),
    decode_of_rowMatches ⟨.SKIP_EQ_REG, 0xF00F#16, 0x5000#16⟩ (by decide),
    decode_of_rowMatches ⟨.LOAD_IMM, 0xF000#16, 0x6000#16⟩ (by decide),
    decode_of_rowMatches ⟨.ADD_IMM, 0xF000#16, 0x7000#16⟩ (by decide),
    decode_of_rowMatches ⟨.COPY, 0xF00F#16, 0x8000#16⟩ (by decide),
    decode_of_rowMatches ⟨.OR, 0xF00F#16, 0x8001#16⟩ (by decide),
    decode_of_rowMatches ⟨.AND, 0xF00F#16, 0x8002#16⟩ (by decide),
    decode_of_rowMatches ⟨.XOR, 0xF00F#16, 0x8003#16⟩ (by decide), ?_⟩
  rintro ⟨hnop, hcls, hret, hdigit, hskipEqReg, hcopy, hor, hand, hxor⟩
  refine decode_of_no_row fun r hmem h => ?_
  simp only [opcodeTable, List.mem_cons, List.not_mem_nil, or_false] at hmem
  rcases hmem with rfl | rfl | rfl | rfl | rfl | rfl | rfl | rfl | rfl | rfl | rfl | rfl | rfl | rfl
  · exact hnop (pattern_eq_of_rowMatches (m := .NOP) (beq_iff_eq.mpr h)).symm
  · exact hcls (pattern_eq_of_rowMatches (m := .CLS) (beq_iff_eq.mpr h)).symm
  · exact hret (pattern_eq_of_rowMatches (m := .RET) (beq_iff_eq.mpr h)).symm
  · exact hdigit 1#4 (by decide) h
  · exact hdigit 2#4 (by decide) h
  · exact hdigit 3#4 (by decide) h
  · exact hdigit 4#4 (by decide) h
  · exact hskipEqReg h
  · exact hdigit 6#4 (by decide) h
  · exact hdigit 7#4 (by decide) h
  · exact hcopy h
  · exact hor h
  · exact hand h
  · exact hxor h

/-- Settles O6: two rows that match one opcode agree where both masks read it, and no two different rows do. -/
theorem opcodePatternsAreDisjoint : Obligations.OpcodePatternsAreDisjoint := fun _ r q hr hq hrop hqop =>
  opcodeTable_separated r hr q hq (pattern_and_mask_comm_of_rowMatches hrop hqop)

/-- Settles O7: each encoding is one of the three formats, read as a number. -/
theorem encodingsAreTheArithmeticOnes : Obligations.EncodingsAreTheArithmeticOnes :=
  ⟨fun nnn => ⟨formatA_toNat 0x1#4 nnn, formatA_toNat 0x2#4 nnn⟩,
    fun x nn => ⟨formatXN_toNat 0x3#4 x nn, formatXN_toNat 0x4#4 x nn, formatXN_toNat 0x6#4 x nn,
      formatXN_toNat 0x7#4 x nn⟩,
    fun x y => ⟨formatXY_toNat 0x5#4 x y 0x0#4, Machine.formatXY_8_toNat x y 0x0#4, Machine.formatXY_8_toNat x y 0x1#4,
      Machine.formatXY_8_toNat x y 0x2#4, Machine.formatXY_8_toNat x y 0x3#4⟩,
    rfl, rfl, rfl⟩

/-- Settles O1: closed words, each decoded by evaluation. -/
theorem sampleWordsDecode : Obligations.SampleWordsDecode := by
  unfold Obligations.SampleWordsDecode Machine.Illegal
  decide

end Sys2Proof
end

section
/-! Assembly terms and instructions correspond one to one (R55): a well-formed term is the writing of an instruction, and
the writing of an instruction assembles to it. -/

namespace Sys2Proof

/-! ## The operands of a well-formed term, by its mnemonic's format (R46) -/

theorem operands_of_wellFormed_Z {m : Mnemonic} {ops : List Nat} (hm : m.format = .Z)
    (h : AsmTerm.wellFormed ⟨m, ops⟩ = true) : ops = [] := by
  match ops with
  | [] => rfl
  | _ :: _ => simp [AsmTerm.wellFormed, hm] at h

theorem operands_of_wellFormed_A {m : Mnemonic} {ops : List Nat} (hm : m.format = .A)
    (h : AsmTerm.wellFormed ⟨m, ops⟩ = true) : ∃ nnn : Addr12, ops = [nnn.toNat] := by
  match ops with
  | [n] =>
    have hn : n < 2 ^ 12 := by simpa [AsmTerm.wellFormed, hm] using h
    exact ⟨BitVec.ofNatLT n hn, rfl⟩
  | [] | _ :: _ :: _ => simp [AsmTerm.wellFormed, hm] at h

theorem operands_of_wellFormed_XN {m : Mnemonic} {ops : List Nat} (hm : m.format = .XN)
    (h : AsmTerm.wellFormed ⟨m, ops⟩ = true) : ∃ (x : RegNum) (nn : Byte), ops = [x.toNat, nn.toNat] := by
  match ops with
  | [a, b] =>
    have hab : a < 2 ^ 4 ∧ b < 2 ^ 8 := by simpa [AsmTerm.wellFormed, hm] using h
    exact ⟨BitVec.ofNatLT a hab.1, BitVec.ofNatLT b hab.2, rfl⟩
  | [] | [_] | _ :: _ :: _ :: _ => simp [AsmTerm.wellFormed, hm] at h

theorem operands_of_wellFormed_XY {m : Mnemonic} {ops : List Nat} (hm : m.format = .XY)
    (h : AsmTerm.wellFormed ⟨m, ops⟩ = true) : ∃ x y : RegNum, ops = [x.toNat, y.toNat] := by
  match ops with
  | [a, b] =>
    have hab : a < 2 ^ 4 ∧ b < 2 ^ 4 := by simpa [AsmTerm.wellFormed, hm] using h
    exact ⟨BitVec.ofNatLT a hab.1, BitVec.ofNatLT b hab.2, rfl⟩
  | [] | [_] | _ :: _ :: _ :: _ => simp [AsmTerm.wellFormed, hm] at h

/-! ## Writing and assembling -/

/-- A well-formed term is the writing of an instruction: that of its mnemonic, with the term's operands. -/
theorem exists_disassemble_eq_of_wellFormed {t : AsmTerm} (h : t.wellFormed = true) : ∃ i, disassemble i = t := by
  obtain ⟨m, ops⟩ := t
  cases hm : m.format with
  | Z =>
    obtain rfl := operands_of_wellFormed_Z hm h
    match m with
    | .NOP => exact ⟨.nop, rfl⟩
    | .CLS => exact ⟨.cls, rfl⟩
    | .RET => exact ⟨.ret, rfl⟩
  | A =>
    obtain ⟨nnn, rfl⟩ := operands_of_wellFormed_A hm h
    match m with
    | .JMP => exact ⟨.jmp nnn, rfl⟩
    | .CALL => exact ⟨.call nnn, rfl⟩
  | XN =>
    obtain ⟨x, nn, rfl⟩ := operands_of_wellFormed_XN hm h
    match m with
    | .SKIP_EQ_IMM => exact ⟨.skipEqImm x nn, rfl⟩
    | .SKIP_NEQ_IMM => exact ⟨.skipNeqImm x nn, rfl⟩
    | .LOAD_IMM => exact ⟨.loadImm x nn, rfl⟩
    | .ADD_IMM => exact ⟨.addImm x nn, rfl⟩
  | XY =>
    obtain ⟨x, y, rfl⟩ := operands_of_wellFormed_XY hm h
    match m with
    | .SKIP_EQ_REG => exact ⟨.skipEqReg x y, rfl⟩
    | .COPY => exact ⟨.copy x y, rfl⟩
    | .OR => exact ⟨.orReg x y, rfl⟩
    | .AND => exact ⟨.andReg x y, rfl⟩
    | .XOR => exact ⟨.xorReg x y, rfl⟩

/-- An instruction's operands lie in their fields by their types (R47). -/
theorem disassemble_wellFormed (i : Instr) : (disassemble i).wellFormed = true := by
  cases i with
  | nop | cls | ret => rfl
  | jmp nnn | call nnn => exact decide_eq_true nnn.isLt
  | skipEqImm x nn | skipNeqImm x nn | loadImm x nn | addImm x nn =>
    exact Bool.and_eq_true_iff.mpr ⟨decide_eq_true x.isLt, decide_eq_true nn.isLt⟩
  | skipEqReg x y | copy x y | orReg x y | andReg x y | xorReg x y =>
    exact Bool.and_eq_true_iff.mpr ⟨decide_eq_true x.isLt, decide_eq_true y.isLt⟩

theorem assemble_disassemble (i : Instr) : assemble (disassemble i) = some i := by
  rw [assemble, if_pos (disassemble_wellFormed i)]
  cases i <;> simp [disassemble, mnemonicOf]

theorem wellFormed_of_assemble {t : AsmTerm} {i : Instr} (h : assemble t = some i) : t.wellFormed = true := by
  by_contra hwf
  simp [assemble, hwf] at h

/-- Settles O8: a term that assembles is well-formed, hence the writing of an instruction, which is the one it gives. -/
theorem assemblyTermsAreInstructions : Obligations.AssemblyTermsAreInstructions := by
  refine ⟨fun i => ⟨disassemble_wellFormed i, assemble_disassemble i⟩, fun t i hi => ?_, fun t ht => ?_⟩
  · obtain ⟨j, rfl⟩ := exists_disassemble_eq_of_wellFormed (wellFormed_of_assemble hi)
    have hji : j = i := Option.some.inj ((assemble_disassemble j).symm.trans hi)
    rw [hji]
  · obtain ⟨i, rfl⟩ := exists_disassemble_eq_of_wellFormed ht
    exact ⟨i, assemble_disassemble i⟩

end Sys2Proof
end

section
/-! The invariants of R125: they hold after Reset, and every effect of an instruction, every Step and every command keeps
them, so every reachable state meets them. -/

namespace Sys2Proof.Machine

/-! ## The bounds on `pc`, the stack and the screen, by effect -/

variable {i : Instr} {s t : State}

/-- From a `pc` that Fetch leaves, an instruction leaves one of at most 4098: a skip adds 2, a target has 12 bits, and a
return address is at most 4096 (R15). -/
theorem Effect.pc_le (e : Effect i s t) (hpc : s.pc.toNat ≤ 4096)
    (hstack : ∀ k (h : k < 16), k < s.sp.val → s.stack[k].toNat ≤ 4096) : t.pc.toNat ≤ 4098 := by
  cases e with
  | jumped a hi ha =>
    rw [State.setPc_pc]
    rcases ha with rfl | rfl | ⟨nnn, rfl⟩
    · omega
    · rw [BitVec.toNat_add, BitVec.toNat_ofNat]
      omega
    · rw [targetOf_toNat]
      omega
  | popped hi hsp => exact Nat.le_trans (hstack _ (by omega) (by omega)) (by decide)
  | pushed nnn hi hsp =>
    rw [State.setPc_pc, targetOf_toNat]
    omega
  | unchanged | cleared | wrote | underflowed | overflowed => exact Nat.le_trans hpc (by decide)

/-- A CALL pushes a `pc` that Fetch leaves, and no other instruction writes a held return address (R76). -/
theorem Effect.stack_le (e : Effect i s t) (hpc : s.pc.toNat ≤ 4096)
    (hstack : ∀ k (h : k < 16), k < s.sp.val → s.stack[k].toNat ≤ 4096) :
    ∀ k (h : k < 16), k < t.sp.val → t.stack[k].toNat ≤ 4096 := by
  intro k hk hkt
  cases e with
  | popped hi hsp => exact hstack k hk (Nat.lt_of_lt_of_le hkt (Nat.sub_le _ _))
  | pushed nnn hi hsp =>
    have hkt' : k < s.sp.val + 1 := hkt
    by_cases hks : s.sp.val = k
    · simpa [hks] using hpc
    · simpa [hks] using hstack k hk (by omega)
  | _ => exact hstack k hk hkt

theorem Effect.pixel_eq_false (e : Effect i s t) (hscreen : ∀ k, s.pixel k = false) (k : Fin 2048) :
    t.pixel k = false := by
  cases e with
  | cleared hi => exact s.pixel_clearScreen k
  | _ => exact hscreen k

/-! ## What keeps the invariants -/

/-- A state that differs from one with the invariants in no memory, `I` or timer meets them where `pc`, the stack and the
screen do. -/
theorem State.Inv.of_sameUnwritten (hs : s.Inv) (h : SameUnwritten s t) (hpc : t.pc.toNat ≤ 4098)
    (hstack : ∀ k (hk : k < 16), k < t.sp.val → t.stack[k].toNat ≤ 4096) (hscreen : ∀ k, t.pixel k = false) :
    t.Inv where
  memCanonical := h.mem ▸ hs.memCanonical
  lowMemory a ha := (h.sameMemory a).trans (hs.lowMemory a ha)
  pcBound := hpc
  stackBound := hstack
  indexZero := h.i.trans hs.indexZero
  delayZero := h.dt.trans hs.delayZero
  soundZero := h.st.trans hs.soundZero
  screenClear := hscreen

/-- Latching a record keeps the invariants: none speaks of it. -/
theorem State.Inv.raiseFault (hs : s.Inv) (c : FaultCause) (a : Word) (op : Opcode) :
    (raiseFault c a op s).Inv :=
  hs.of_sameUnwritten ⟨rfl, rfl, rfl, rfl, rfl⟩ hs.pcBound hs.stackBound hs.screenClear

/-- Fetch's advance keeps the invariants and leaves a `pc` of at most 4096 (R15). -/
theorem State.Inv.advancePc (hs : s.Inv) (hpc : s.pc.toNat ≤ 4094) : s.advancePc.Inv := by
  refine hs.of_sameUnwritten ⟨rfl, rfl, rfl, rfl, rfl⟩ ?_ hs.stackBound hs.screenClear
  rw [advancePc_toNat s hpc]
  omega

theorem State.Inv.of_effect (hs : s.Inv) (hpc : s.pc.toNat ≤ 4096) (e : Effect i s t) : t.Inv :=
  hs.of_sameUnwritten e.sameUnwritten (e.pc_le hpc hs.stackBound) (e.stack_le hpc hs.stackBound)
    (e.pixel_eq_false hs.screenClear)

theorem State.Inv.of_step (hs : s.Inv) (h : step s = .next t) : t.Inv := by
  rcases step_cases s with ⟨-, hstep⟩ | ⟨-, -, hstep⟩ | ⟨-, hpc, op, -, ⟨_, -, hstep⟩ | ⟨i, -, hstep⟩⟩ <;>
    rw [hstep] at h
  · cases h
    exact hs
  · cases h
    exact hs.raiseFault _ _ _
  · cases h
    exact (hs.advancePc hpc).raiseFault _ _ _
  · obtain ⟨u, hu, e⟩ := exec_cases i s.advancePc
    rw [hu] at h
    cases h
    refine (hs.advancePc hpc).of_effect ?_ e
    rw [advancePc_toNat s hpc]
    omega

/-- A TICK with both timers at 0 changes nothing (R112). -/
theorem timerTick_of_zero (hdt : s.dt = 0#8) (hst : s.st = 0#8) : timerTick s = s := by
  rcases timerTick_cases s with ⟨-, ht⟩ | ⟨-, ht⟩
  · exact ht
  · have hdt' : countDown s.dt = s.dt := by rw [hdt]; rfl
    have hst' : countDown s.st = s.st := by rw [hst]; rfl
    rw [ht, hdt', hst']

/-- A store at one address leaves the byte at every other (R32). -/
theorem readByte_memStore_other (s : State) {a b : Nat} (x : Byte) (h : b ≠ a) :
    readByte { s with mem := memStore s.mem a x } b = readByte s b := by
  simp [readByte, memLookup_memStore_other _ _ _ _ h]

/-- A store in the program area keeps the invariants: it keeps the canonical form and lies above low memory (R32). -/
theorem State.Inv.memStore (hs : s.Inv) {a : Addr12} (d : Byte) (ha : 0x200 ≤ a.toNat) :
    ({ s with mem := memStore s.mem a.toNat d } : State).Inv :=
  { hs with
    memCanonical := memStore_wf d a.isLt hs.memCanonical
    lowMemory := fun b hb =>
      (readByte_memStore_other s d (Nat.ne_of_lt (Nat.lt_of_lt_of_le hb ha))).trans (hs.lowMemory b hb) }

theorem State.Inv.setKeyFlag (hs : s.Inv) (k : BitVec 4) (b : Bool) : (s.setKeyFlag k b).Inv := { hs with }

theorem State.Inv.reset : State.reset.Inv where
  memCanonical := reset_mem_wf
  lowMemory a ha := readByte_eq_some State.reset (Nat.lt_trans ha (by decide))
  pcBound := by decide
  stackBound k _ hk := absurd hk (Nat.not_lt_zero k)
  indexZero := rfl
  delayZero := rfl
  soundZero := rfl
  screenClear k := by simp [State.pixel, State.reset]

theorem State.Inv.of_perform {c : Command} {r : Response} (hs : s.Inv) (h : perform c s = .next r) : r.state.Inv := by
  rcases perform_cases h with hr | ⟨-, hr⟩ | ⟨-, hstep⟩ | ⟨-, hr⟩ | ⟨a, d, -, ha, hr⟩ | ⟨k, b, -, hr⟩
  case inr.inr.inl => exact hs.of_step hstep
  all_goals rw [hr]
  · exact hs
  · exact .reset
  · rwa [timerTick_of_zero hs.delayZero hs.soundZero]
  · exact hs.memStore d ha
  · exact hs.setKeyFlag k b

/-! ## Sequences of commands -/

/-- What one command keeps, every sequence of commands keeps. -/
theorem performAll_keeps {P : State → Prop} {cs : List Command}
    (hP : ∀ c ∈ cs, ∀ s r, P s → perform c s = .next r → P r.state) (hs : P s) (h : performAll cs s = .next t) : P t := by
  induction cs generalizing s with
  | nil =>
    cases h
    exact hs
  | cons c cs ih =>
    cases hc : perform c s with
    | next r =>
      rw [performAll, hc] at h
      exact ih (fun c hc => hP c (List.mem_cons_of_mem _ hc)) (hP c List.mem_cons_self s r hs hc) h
    | fault f => simp [performAll, hc] at h
    | refused r => simp [performAll, hc] at h

/-- Every command answers (R90), so every sequence of commands does. -/
theorem performAll_completes (cs : List Command) (s : State) : ∃ t, performAll cs s = .next t := by
  induction cs generalizing s with
  | nil => exact ⟨s, rfl⟩
  | cons c cs ih =>
    obtain ⟨-, hperform⟩ := operationsWriteOnlyWhatTheyName
    obtain ⟨r, hr, -⟩ := hperform c s
    obtain ⟨t, ht⟩ := ih r.state
    exact ⟨t, by rw [performAll, hr]; exact ht⟩

theorem performAll_append (cs ds : List Command) (h : performAll cs s = .next t) :
    performAll (cs ++ ds) s = performAll ds t := by
  induction cs generalizing s with
  | nil =>
    cases h
    rfl
  | cons c cs ih =>
    cases hc : perform c s with
    | next r =>
      simp only [performAll, hc] at h
      simp only [List.cons_append, performAll, hc, ih h]
    | fault f => simp [performAll, hc] at h
    | refused r => simp [performAll, hc] at h

/-! ## The obligations -/

/-- Settles O51: by the cases of a step, the instruction's effect among them. -/
theorem everyStepKeepsTheInvariants : Obligations.EveryStepKeepsTheInvariants := fun _ _ => .of_step

/-- Settles O52: by the cases of a command. -/
theorem everyCommandKeepsTheInvariants : Obligations.EveryCommandKeepsTheInvariants := fun _ _ _ => .of_perform

/-- Settles O50: field by field of the reset state. -/
theorem resetMeetsTheInvariants : Obligations.ResetMeetsTheInvariants := .reset

/-- Settles O53: Reset meets the invariants and every command keeps them. -/
theorem reachableStatesMeetTheInvariants : Obligations.ReachableStatesMeetTheInvariants :=
  fun _ ⟨_, hrun⟩ => performAll_keeps (fun _ _ _ _ => .of_perform) .reset hrun

/-- Settles O54: only RESET and LOAD write memory, and the store keeps the form. -/
theorem everyCommandKeepsMemoryCanonical : Obligations.EveryCommandKeepsMemoryCanonical := by
  intro c s r hwf h
  rcases perform_cases h with hr | ⟨-, hr⟩ | ⟨-, hstep⟩ | ⟨-, hr⟩ | ⟨a, d, -, -, hr⟩ | ⟨k, b, -, hr⟩
  · exact hr ▸ hwf
  · exact hr ▸ reset_mem_wf
  · obtain ⟨t, ht, hsame⟩ := step_sameUnwritten s
    obtain rfl : t = r.state := by simpa [ht] using hstep
    exact hsame.mem ▸ hwf
  · rw [hr, timerTick_eq_update]
    exact hwf
  · exact hr ▸ memStore_wf d a.isLt hwf
  · exact hr ▸ hwf

end Sys2Proof.Machine
end

section
/-! A latched fault: what the commands still do, and that it stays until RESET (R107, R108). -/

namespace Sys2Proof.Machine

variable {s t u : State}

/-- Nothing but memory and the key flags may differ. -/
def OnlyMemoryAndKeysMayChange (s t : State) : Prop := t = { s with mem := t.mem, keys := t.keys }

theorem OnlyMemoryAndKeysMayChange.refl (s : State) : OnlyMemoryAndKeysMayChange s s := rfl

theorem OnlyMemoryAndKeysMayChange.trans (hst : OnlyMemoryAndKeysMayChange s t) (htu : OnlyMemoryAndKeysMayChange t u) :
    OnlyMemoryAndKeysMayChange s u := by
  unfold OnlyMemoryAndKeysMayChange at *
  rw [htu, hst]

theorem OnlyMemoryAndKeysMayChange.fault_eq (h : OnlyMemoryAndKeysMayChange s t) : t.fault = s.fault := by
  rw [h]

theorem step_of_fault (hf : s.fault ≠ none) : step s = .next s := by
  simp [step, s.halted_eq_true_iff.mpr hf]

theorem timerTick_of_fault (hf : s.fault ≠ none) : timerTick s = s := by
  simp [timerTick, s.halted_eq_true_iff.mpr hf]

/-- While a fault is latched STEP and TICK are held, and of the others only RESET writes more than memory and keys. -/
theorem onlyMemoryAndKeysMayChange_of_perform {c : Command} {r : Response} (hf : s.fault ≠ none) (hc : c ≠ .reset)
    (h : perform c s = .next r) : OnlyMemoryAndKeysMayChange s r.state := by
  rcases perform_cases h with hr | ⟨hreset, -⟩ | ⟨-, hstep⟩ | ⟨-, hr⟩ | ⟨a, d, -, -, hr⟩ | ⟨k, b, -, hr⟩
  · exact hr ▸ .refl s
  · exact absurd hreset hc
  · have hr : r.state = s := by simpa [step_of_fault hf] using hstep.symm
    exact hr ▸ .refl s
  · rw [hr, timerTick_of_fault hf]
    exact .refl s
  · exact hr ▸ rfl
  · exact hr ▸ rfl

/-- Settles O55: what a halted state keeps under one command it keeps under all, the latched record among it; a last
RESET leaves the reset state. -/
theorem faultStaysUntilReset : Obligations.FaultStaysUntilReset := by
  refine ⟨fun cs s f hf hreset => ?_, fun cs s => ?_⟩
  · obtain ⟨t, ht⟩ := performAll_completes cs s
    refine ⟨t, ht, performAll_keeps (P := OnlyMemoryAndKeysMayChange s) ?_ (.refl s) ht⟩
    intro c hc u r hu hr
    have hfault : u.fault ≠ none := by simp [hu.fault_eq, hf]
    exact hu.trans (onlyMemoryAndKeysMayChange_of_perform hfault (fun e => hreset (e ▸ hc)) hr)
  · obtain ⟨t, ht⟩ := performAll_completes cs s
    exact ⟨State.reset, performAll_append cs [.reset] ht, rfl⟩

end Sys2Proof.Machine
end

section
/-! The call stack (R17, R18, R72, R73): a pop undoes a push, whatever happened above the entry in between. -/

namespace Sys2Proof.Machine

variable {s t u : State} {a : Word}

/-- `u` holds the call stack of `s`: the same `sp`, and the same entries below it. -/
def SameHeld (s u : State) : Prop := u.sp = s.sp ∧ ∀ k (h : k < 16), k < s.sp.val → u.stack[k] = s.stack[k]

theorem SameHeld.refl (s : State) : SameHeld s s := ⟨rfl, fun _ _ _ => rfl⟩

theorem exists_push_of_free (a : Word) (h : s.sp.val < 16) : ∃ t, push s a = some t :=
  Option.ne_none_iff_exists'.mp fun hnone => Nat.ne_of_lt h ((push_eq_none_iff s a).mp hnone)

theorem sp_of_push (h : push s a = some t) : t.sp.val = s.sp.val + 1 := by
  obtain ⟨_, rfl⟩ := push_eq_some h
  rfl

theorem pop_of_held (h : 0 < s.sp.val) :
    pop s = some (s.stack[s.sp.val - 1]'(by omega), { s with sp := ⟨s.sp.val - 1, by omega⟩ }) :=
  dif_neg (Nat.ne_of_gt h)

/-- Where the stack is as a push left it, a pop gives the address back and leaves the stack as before the push. -/
theorem pop_of_push (hpush : push s a = some t) (hu : SameHeld t u) : ∃ w, pop u = some (a, w) ∧ SameHeld s w := by
  obtain ⟨hs, rfl⟩ := push_eq_some hpush
  obtain ⟨hsp, hstack⟩ := hu
  have hspv : u.sp.val = s.sp.val + 1 := congrArg Fin.val hsp
  have htop : u.stack[s.sp.val] = a := by simpa using hstack s.sp.val hs (Nat.lt_succ_self _)
  refine ⟨{ u with sp := s.sp }, ?_, rfl, fun k hk hks => ?_⟩
  · rw [pop_of_held (by omega)]
    simp [hspv, htop]
  · have hne : s.sp.val ≠ k := Nat.ne_of_gt hks
    simpa [hne] using hstack k hk (Nat.lt_succ_of_lt hks)

/-! ## Many pushes and pops -/

theorem pushAll_cons {as : List Word} (h : push s a = some t) : pushAll (a :: as) s = pushAll as t := by
  simp [pushAll, h]

/-- One more pop gives the next address at the end of the list. -/
theorem popAll_succ {n : Nat} {as : List Word} {w : State} (hall : popAll n t = some (as, u)) (hpop : pop u = some (a, w)) :
    popAll (n + 1) t = some (as ++ [a], w) := by
  induction n generalizing t as with
  | zero =>
    cases hall
    simp [popAll, hpop]
  | succ n ih =>
    rw [popAll] at hall
    split at hall
    · next b v hv =>
      split at hall
      · next bs x hx =>
        cases hall
        rw [popAll, hv]
        simp [ih hx]
      · cases hall
    · cases hall

/-- Pushes that fit all succeed, and as many pops give the addresses back in reverse and leave the stack as before. -/
theorem pushAll_then_popAll (as : List Word) (hfit : s.sp.val + as.length ≤ 16) :
    ∃ t u, pushAll as s = some t ∧ popAll as.length t = some (as.reverse, u) ∧ SameHeld s u := by
  induction as generalizing s with
  | nil => exact ⟨s, s, rfl, rfl, .refl s⟩
  | cons a as ih =>
    rw [List.length_cons] at hfit
    obtain ⟨s', hpush⟩ := exists_push_of_free a (show s.sp.val < 16 by omega)
    have hsp := sp_of_push hpush
    obtain ⟨t, u, hall, hpops, hheld⟩ := ih (s := s') (by omega)
    obtain ⟨w, hpop, hheld'⟩ := pop_of_push hpush hheld
    refine ⟨t, w, (pushAll_cons hpush).trans hall, ?_, hheld'⟩
    rw [List.length_cons, List.reverse_cons]
    exact popAll_succ hpops hpop

theorem pushAll_eq_none (as : List Word) (hfull : 16 < s.sp.val + as.length) : pushAll as s = none := by
  induction as generalizing s with
  | nil => exact absurd s.sp.isLt (by simp at hfull; omega)
  | cons a as ih =>
    rw [List.length_cons] at hfull
    cases hpush : push s a with
    | none => simp [pushAll, hpush]
    | some t =>
      have hsp := sp_of_push hpush
      rw [pushAll_cons hpush]
      exact ih (by omega)

/-- Settles O27: by induction on the addresses, the last push being the first popped. -/
theorem callStackIsLifo : Obligations.CallStackIsLifo := by
  refine fun as s => ⟨fun hfit => ?_, pushAll_eq_none as⟩
  obtain ⟨t, u, hpush, hpop, hsp, -⟩ := pushAll_then_popAll as hfit
  exact ⟨t, u, hpush, hpop, hsp⟩

end Sys2Proof.Machine
end

section
/-! CALL and RET (R74, R76): each by whether the stack has room or holds an address, and RET after CALL. -/

namespace Sys2Proof.Machine

variable {s t : State} {a : Word}

theorem encodedAs_call (nnn : Addr12) : EncodedAs (0x2000 + nnn.toNat) (.call nnn) :=
  encodedAs_of_encode_toNat (encodesInRow _) (formatA_toNat 0x2#4 nnn)

theorem encodedAs_ret : EncodedAs 0x00EE .ret := rfl

theorem exec_call_of_push {nnn : Addr12} (h : push s s.pc = some t) :
    exec (.call nnn) s = .next (t.setPc (targetOf nnn)) := by
  simp [exec, execCall, h]

theorem exec_ret_of_pop (h : pop s = some (a, t)) : exec .ret s = .next (t.setPc a) := by
  simp [exec, execRet, h]

theorem exec_call_of_full (nnn : Addr12) (h : s.sp.val = 16) :
    exec (.call nnn) s = .next (raiseFault .stackOverflow s.instrAddr (encode (.call nnn)) s) :=
  execCall_of_full nnn s h

theorem exec_ret_of_empty (h : s.sp.val = 0) :
    exec .ret s = .next (raiseFault .stackUnderflow s.instrAddr 0x00EE#16 s) :=
  execRet_of_empty s h

theorem sameMemory_raiseFault (c : FaultCause) (addr : Word) (op : Opcode) (s : State) :
    SameMemory s (raiseFault c addr op s) := readByte_congr (raiseFault_mem s c addr op)

/-- Settles O12: the push sets one entry and counts it, and the jump sets `pc`. -/
theorem callPushesAndJumps : Obligations.CallPushesAndJumps := by
  refine fun nnn => ⟨encodedAs_call nnn, fun s hfree => ?_⟩
  obtain ⟨t, hpush⟩ := exists_push_of_free s.pc hfree
  refine ⟨t.setPc (targetOf nnn), exec_call_of_push hpush, targetOf_toNat nnn, sp_of_push (t := t) hpush, ?_⟩
  obtain ⟨_, rfl⟩ := push_eq_some hpush
  refine ⟨fun k hk => ?_, fun _ => rfl, readByte_congr rfl, ⟨rfl, rfl, rfl, rfl, rfl⟩, rfl⟩
  rw [State.setPc_stack, Vector.getElem_set]
  simp only [eq_comm]

/-- Settles O13: the pop takes the entry below `sp` and counts one less, and the jump sets `pc`. -/
theorem retPopsIntoPc : Obligations.RetPopsIntoPc := by
  refine ⟨encodedAs_ret, fun s k hk hsp => ⟨_, exec_ret_of_pop (pop_of_held (by omega)), ?_, ?_, rfl, ?_⟩⟩
  · simp [hsp]
  · show s.sp.val - 1 = k
    omega
  · exact ⟨fun _ => rfl, readByte_congr rfl, ⟨rfl, rfl, rfl, rfl, rfl⟩, rfl⟩

/-- Settles O14: the refused push leaves the state as it was, and the record is latched. -/
theorem callOnFullStackLatchesOverflow : Obligations.CallOnFullStackLatchesOverflow := fun nnn _ hfull =>
  ⟨_, _, exec_call_of_full nnn hfull, rfl, formatA_toNat 0x2#4 nnn, rfl, ⟨rfl, rfl⟩, fun _ => rfl,
    sameMemory_raiseFault _ _ _ _, rfl, rfl, rfl, rfl, rfl⟩

/-- Settles O15: the refused pop leaves the state as it was, and the record is latched. -/
theorem retOnEmptyStackLatchesUnderflow : Obligations.RetOnEmptyStackLatchesUnderflow := fun _ hempty =>
  ⟨_, exec_ret_of_empty hempty, rfl, rfl, ⟨rfl, rfl⟩, fun _ => rfl, sameMemory_raiseFault _ _ _ _, rfl, rfl, rfl, rfl, rfl⟩

/-- Settles O28: the RET pops what the CALL pushed, the `pc` after the CALL's own fetch. -/
theorem retReturnsToAfterTheCall : Obligations.RetReturnsToAfterTheCall := by
  intro nnn s hfree
  obtain ⟨t, hpush⟩ := exists_push_of_free s.pc hfree
  refine ⟨t.setPc (targetOf nnn), exec_call_of_push hpush, fun u hstack hsp => ?_⟩
  have hheld : SameHeld t u := ⟨hsp, fun k hk _ => by rw [hstack, State.setPc_stack]⟩
  obtain ⟨w, hpop, hw, -⟩ := pop_of_push hpush hheld
  exact ⟨w.setPc s.pc, exec_ret_of_pop hpop, rfl, hw⟩

end Sys2Proof.Machine
end

section
/-! The skips at execution (R78 to R80): their encodings, and the `pc` that each `skipIf` leaves. -/

namespace Sys2Proof.Machine

theorem skipIf_decide_pc (p : Prop) [Decidable p] (s : State) :
    (skipIf (decide p) s).pc = if p then s.pc + 2#16 else s.pc := by
  rw [skipIf_eq, State.setPc_pc]
  simp only [decide_eq_true_eq]

theorem onlyPcMayChange_skipIf (taken : Bool) (s : State) : OnlyPcMayChange s (skipIf taken s) := by
  rw [skipIf_eq]
  exact onlyPcMayChange_setPc s _

theorem encodedAs_skipEqImm (x : RegNum) (nn : Byte) : EncodedAs (0x3000 + 256 * x.toNat + nn.toNat) (.skipEqImm x nn) :=
  encodedAs_of_encode_toNat (encodesInRow _) (formatXN_toNat 0x3#4 x nn)

theorem encodedAs_skipNeqImm (x : RegNum) (nn : Byte) :
    EncodedAs (0x4000 + 256 * x.toNat + nn.toNat) (.skipNeqImm x nn) :=
  encodedAs_of_encode_toNat (encodesInRow _) (formatXN_toNat 0x4#4 x nn)

theorem encodedAs_skipEqReg (x y : RegNum) : EncodedAs (0x5000 + 256 * x.toNat + 16 * y.toNat) (.skipEqReg x y) :=
  encodedAs_of_encode_toNat (encodesInRow _) (formatXY_toNat 0x5#4 x y 0x0#4)

/-- Of the rows of the map, none has digit1 = 5 and a digit4 of 1 or more. -/
theorem opcodeTable_excludes_digit4_from_1 : ∀ f : BitVec 4, 1 ≤ f.toNat → ∀ r ∈ opcodeTable,
    r.pattern &&& 0xF00F#16 ≠ formatXY 0x5#4 0#4 0#4 f &&& r.mask := by decide

/-- 0x5XY1 to 0x5XYF are illegal (R52, R80). -/
theorem illegal_of_digit4_from_1 (x y : RegNum) {d : Nat} (hlow : 1 ≤ d) (hhigh : d ≤ 15) :
    Illegal (0x5000 + 256 * x.toNat + 16 * y.toNat + d) := by
  have hd : (BitVec.ofNat 4 d).toNat = d := (BitVec.toNat_ofNat d 4).trans (Nat.mod_eq_of_lt (by omega))
  have hrow := findRow_formatXY_eq_none x y (opcodeTable_excludes_digit4_from_1 (BitVec.ofNat 4 d) (by omega))
  exact illegal_of_findRow_eq_none hrow (by rw [formatXY_toNat, hd]; rfl)

/-- Settles O16: the skip is taken exactly where the two bytes are equal. -/
theorem skipEqImmSkipsWhenEqual : Obligations.SkipEqImmSkipsWhenEqual := fun x nn =>
  ⟨encodedAs_skipEqImm x nn, fun s => ⟨_, exec_skipEqImm x nn s, skipIf_decide_pc _ s, onlyPcMayChange_skipIf _ s⟩⟩

/-- Settles O17: the skip is taken exactly where the two bytes differ, so exactly where SKIP_EQ_IMM's is not. -/
theorem skipNeqImmSkipsWhenDifferent : Obligations.SkipNeqImmSkipsWhenDifferent := by
  refine fun x nn => ⟨encodedAs_skipNeqImm x nn, fun s => ⟨_, _, exec_skipNeqImm x nn s, exec_skipEqImm x nn s, ?_,
    onlyPcMayChange_skipIf _ s, ?_⟩⟩
  · rw [skipIf_decide_pc, ite_not]
  · rw [skipIf_decide_pc, skipIf_decide_pc, ite_not]
    by_cases hx : s.reg x = nn
    · rw [if_pos hx, if_pos hx, eq_comm]
    · rw [if_neg hx, if_neg hx, eq_self, eq_self]

/-- Settles O18: the skip is taken exactly where the two registers are equal, and no row has digit1 = 5 with another
digit4. -/
theorem skipEqRegSkipsWhenEqual : Obligations.SkipEqRegSkipsWhenEqual := by
  refine fun x y => ⟨encodedAs_skipEqReg x y, fun d => illegal_of_digit4_from_1 x y, fun s =>
    ⟨_, exec_skipEqReg x y s, skipIf_decide_pc _ s, fun hxy => ?_, onlyPcMayChange_skipIf _ s⟩⟩
  rw [skipIf_decide_pc, if_pos (by rw [hxy])]

end Sys2Proof.Machine
end

section
/-! A Step that faults (R100 to R107): in Fetch, at decode or on a stack bound. It writes the record and `pc` only. -/

namespace Sys2Proof.Machine

variable {s t : State} {i : Instr} {op : Opcode}

/-- Nothing but `pc` and the fault record may differ. -/
structure OnlyPcAndFaultMayChange (s t : State) : Prop where
  regs : SameRegs s t
  memory : SameMemory s t
  stack : SameStack s t
  screen : SameScreen s t
  i : t.i = s.i
  dt : t.dt = s.dt
  st : t.st = s.st
  keys : t.keys = s.keys

theorem onlyPcAndFaultMayChange_raiseFault (c : FaultCause) (a : Word) (op : Opcode) (s : State) :
    OnlyPcAndFaultMayChange s (raiseFault c a op s) :=
  ⟨fun _ => rfl, sameMemory_raiseFault c a op s, ⟨rfl, rfl⟩, rfl, rfl, rfl, rfl, rfl⟩

/-- A record latched after Fetch's advance. -/
theorem onlyPcAndFaultMayChange_raiseFault_advancePc (c : FaultCause) (a : Word) (op : Opcode) (s : State) :
    OnlyPcAndFaultMayChange s (raiseFault c a op s.advancePc) :=
  ⟨fun _ => rfl, sameMemory_raiseFault c a op s.advancePc, ⟨rfl, rfl⟩, rfl, rfl, rfl, rfl, rfl⟩

/-! ## When a Step faults -/

theorem step_of_outOfBounds (hf : s.fault = none) (hpc : 4095 ≤ s.pc.toNat) : step s = .next (faultFetchBounds s) := by
  have hbounds : ¬ fetchInBounds s = true := by
    rw [fetchInBounds_iff]
    omega
  simp [step, s.halted_eq_false_iff.mpr hf, hbounds]

theorem step_of_decode_error {e : DecodeError} (hf : s.fault = none) (hpc : s.pc.toNat ≤ 4094)
    (hop : fetchOpcode s = some op) (he : decode op = .error e) : step s = .next (faultUnhandled op s) := by
  simp [step, s.halted_eq_false_iff.mpr hf, (fetchInBounds_iff s).mpr hpc, hop, he]

/-- The one way an opcode is no instruction (R52). -/
theorem decode_error_eq {e : DecodeError} (h : decode op = .error e) : e = .unhandledInstruction op := by
  cases hrow : findRow op with
  | none => simpa [decode, hrow] using h.symm
  | some r => simp [decode, hrow] at h

/-- Settles O32: the Step is `faultFetchBounds`, which latches the record and nothing else. -/
theorem fetchOutOfBoundsLatchesFault : Obligations.FetchOutOfBoundsLatchesFault := by
  intro s hf hpc
  obtain ⟨hregs, hmem, hstack, hscreen, hi, hdt, hst, hkeys⟩ :=
    onlyPcAndFaultMayChange_raiseFault .fetchBounds s.pc 0x0000#16 s
  exact ⟨_, step_of_outOfBounds hf hpc, rfl, rfl, hregs, hmem, hstack, hscreen, hi, hdt, hst, hkeys⟩

/-- Settles O33: an opcode of no row does not decode, and the Step latches the record after the advance. -/
theorem illegalOpcodeLatchesFault : Obligations.IllegalOpcodeLatchesFault := by
  intro s op hf hpc hop hnoRow
  obtain ⟨hregs, hmem, hstack, hscreen, hi, hdt, hst, hkeys⟩ :=
    onlyPcAndFaultMayChange_raiseFault_advancePc .unhandledInstruction s.pc op s
  exact ⟨_, step_of_decode_error hf hpc hop (decode_of_no_row hnoRow), rfl, advancePc_toNat s hpc, hregs, hmem, hstack,
    hscreen, hi, hdt, hst, hkeys⟩

/-- What an instruction's effect that latches a record was: a CALL on a full stack or a RET on an empty one (R72, R73). -/
theorem Effect.eq_raiseFault {f : FaultRecord} (e : Effect i s t) (hs : s.fault = none) (ht : t.fault = some f) :
    (∃ nnn, i = .call nnn ∧ s.sp.val = 16 ∧ t = raiseFault .stackOverflow s.instrAddr (encode i) s) ∨
    (i = .ret ∧ s.sp.val = 0 ∧ t = raiseFault .stackUnderflow s.instrAddr (encode i) s) := by
  cases e with
  | overflowed nnn hi hsp =>
    subst hi
    exact .inl ⟨nnn, rfl, hsp, rfl⟩
  | underflowed hi hsp =>
    subst hi
    exact .inr ⟨rfl, hsp, rfl⟩
  | _ => exact absurd (hs.symm.trans ht) nofun

/-- The encoding of a CALL lies in its row (R49). -/
theorem encode_call_mask (nnn : Addr12) : encode (.call nnn) &&& 0xF000#16 = 0x2000#16 := by
  rw [mask_digit1, encode, digit1_formatA]
  rfl

/-- Everything a Step that latches a record can have done (R60, R106): one of the four causes, each with its condition. -/
theorem step_fault_cases {f : FaultRecord} (hf : s.fault = none) (hstep : step s = .next t) (ht : t.fault = some f) :
    (4095 ≤ s.pc.toNat ∧ t = raiseFault .fetchBounds s.pc 0x0000#16 s) ∨
    ∃ op, s.pc.toNat ≤ 4094 ∧ fetchOpcode s = some op ∧
      ((decode op = .error (.unhandledInstruction op) ∧ t = raiseFault .unhandledInstruction s.pc op s.advancePc) ∨
       (op &&& 0xF000#16 = 0x2000#16 ∧ s.sp.val = 16 ∧ t = raiseFault .stackOverflow s.pc op s.advancePc) ∨
       (op = 0x00EE#16 ∧ s.sp.val = 0 ∧ t = raiseFault .stackUnderflow s.pc op s.advancePc)) := by
  rcases step_cases s with ⟨hhalted, -⟩ | ⟨-, hpc, hs⟩ | ⟨-, hpc, op, hop, ⟨e, he, hs⟩ | ⟨i, hi, hs⟩⟩
  · exact absurd hf hhalted
  · rw [hs] at hstep
    cases hstep
    exact .inl ⟨hpc, rfl⟩
  · rw [hs] at hstep
    cases hstep
    obtain rfl := decode_error_eq he
    exact .inr ⟨op, hpc, hop, .inl ⟨he, rfl⟩⟩
  · obtain ⟨u, hu, e⟩ := exec_cases i s.advancePc
    rw [hs, hu] at hstep
    cases hstep
    have henc : encode i = op := encode_of_decode hi
    refine .inr ⟨op, hpc, hop, .inr ?_⟩
    rcases e.eq_raiseFault hf ht with ⟨nnn, rfl, hsp, ht'⟩ | ⟨rfl, hsp, ht'⟩ <;>
      rw [henc, instrAddr_advancePc] at ht'
    · exact .inl ⟨henc ▸ encode_call_mask nnn, hsp, ht'⟩
    · exact .inr ⟨henc.symm, hsp, ht'⟩

/-- Settles O34: cause by cause, each a `raiseFault` before or after Fetch's advance. -/
theorem faultingStepIsPrecise : Obligations.FaultingStepIsPrecise := by
  intro s t f hf hstep ht
  rcases step_fault_cases hf hstep ht with ⟨hpc, rfl⟩ | ⟨op, hpc, hop, ⟨he, rfl⟩ | ⟨hcall, hsp, rfl⟩ | ⟨hret, hsp, rfl⟩⟩ <;>
    cases ht
  · obtain ⟨hregs, hmem, hstack, hscreen, hi, hdt, hst, hkeys⟩ :=
      onlyPcAndFaultMayChange_raiseFault .fetchBounds s.pc 0x0000#16 s
    exact ⟨rfl, hregs, hmem, hstack, hscreen, hi, hdt, hst, hkeys, hpc, rfl, rfl⟩
  all_goals
    obtain ⟨hregs, hmem, hstack, hscreen, hi, hdt, hst, hkeys⟩ :=
      onlyPcAndFaultMayChange_raiseFault_advancePc _ s.pc op s
    refine ⟨rfl, hregs, hmem, hstack, hscreen, hi, hdt, hst, hkeys, hop, advancePc_toNat s hpc, ?_⟩
  · exact he
  · exact ⟨hsp, hcall⟩
  · exact ⟨hsp, hret⟩

end Sys2Proof.Machine
end

section
/-! A Step that completes (R14, R60, R64): which instruction it runs, the `pc` it leaves, and when it is safe. -/

namespace Sys2Proof.Machine

variable {s t : State} {i : Instr} {op : Opcode}

/-- Settles O30: the fetch joins the two bytes, and their instruction runs after the advance. -/
theorem stepRunsTheDecodedInstruction : Obligations.StepRunsTheDecodedInstruction :=
  fun s _ _ _ hf hpc hlower hhigher hi =>
    ⟨step_eq_exec hf hpc (fetchOpcode_of_readByte hlower hhigher) hi, advancePc_toNat s hpc, onlyPcMayChange_advancePc s⟩

/-! ## Safe instructions -/

theorem executesSafely_advancePc (i : Instr) (s : State) : ExecutesSafely i s.advancePc ↔ ExecutesSafely i s := by
  cases i <;> rfl

/-- An instruction within the stack bounds latches no record (R66). -/
theorem Effect.fault_eq_of_safe (e : Effect i s t) (hsafe : ExecutesSafely i s) : t.fault = s.fault := by
  by_contra hne
  rcases e.stack_bound_of_fault_ne hne with ⟨rfl, hsp⟩ | ⟨nnn, rfl, hsp⟩
  · exact Nat.ne_of_gt hsafe hsp
  · exact Nat.ne_of_lt hsafe hsp

/-- An instruction that leaves no record latched was within the stack bounds. -/
theorem executesSafely_of_exec (hexec : exec i s = .next t) (ht : t.fault = none) : ExecutesSafely i s := by
  cases i with
  | ret =>
    by_contra hunsafe
    rw [exec_ret_of_empty (Nat.eq_zero_of_not_pos hunsafe)] at hexec
    cases hexec
    cases ht
  | call nnn =>
    by_contra hunsafe
    have hsp : s.sp.val = 16 := Nat.le_antisymm (Nat.le_of_lt_succ s.sp.isLt) (Nat.le_of_not_lt hunsafe)
    rw [exec_call_of_full nnn hsp] at hexec
    cases hexec
    cases ht
  | _ => trivial

/-! ## The `pc` after a Step -/

theorem skipIf_decide_advancePc_toNat (p : Prop) [Decidable p] (hpc : s.pc.toNat ≤ 4094) :
    (skipIf (decide p) s.advancePc).pc.toNat = if p then s.pc.toNat + 4 else s.pc.toNat + 2 := by
  simpa only [decide_eq_true_eq] using skipIf_advancePc_toNat (decide p) hpc

/-- R14's table, row by row. -/
theorem pc_toNat_of_exec (hpc : s.pc.toNat ≤ 4094) (hsafe : ExecutesSafely i s)
    (hexec : exec i s.advancePc = .next t) : t.pc.toNat = pcAfter i s := by
  cases i with
  | nop | cls | loadImm | addImm | copy | orReg | andReg | xorReg =>
    cases hexec
    exact advancePc_toNat s hpc
  | jmp nnn =>
    cases hexec
    exact targetOf_toNat nnn
  | call nnn =>
    obtain ⟨u, hpush⟩ := exists_push_of_free (s := s.advancePc) s.advancePc.pc hsafe
    rw [exec_call_of_push hpush] at hexec
    cases hexec
    exact targetOf_toNat nnn
  | ret =>
    rw [exec_ret_of_pop (pop_of_held (s := s.advancePc) hsafe)] at hexec
    cases hexec
    rw [pcAfter, pop_of_held hsafe]
    rfl
  | skipEqImm x nn =>
    rw [exec_skipEqImm] at hexec
    cases hexec
    exact skipIf_decide_advancePc_toNat (s.reg x = nn) hpc
  | skipNeqImm x nn =>
    rw [exec_skipNeqImm] at hexec
    cases hexec
    exact skipIf_decide_advancePc_toNat (s.reg x ≠ nn) hpc
  | skipEqReg x y =>
    rw [exec_skipEqReg] at hexec
    cases hexec
    exact skipIf_decide_advancePc_toNat (s.reg x = s.reg y) hpc

/-- Settles O31: the instruction runs after the advance, latches no record, and leaves its row's `pc`. -/
theorem pcAfterEachInstruction : Obligations.PcAfterEachInstruction := by
  intro s op i hf hpc hop hi hsafe
  obtain ⟨t, ht, e⟩ := exec_cases i s.advancePc
  have hfault : t.fault = s.fault := e.fault_eq_of_safe ((executesSafely_advancePc i s).mpr hsafe)
  exact ⟨t, (step_eq_exec hf hpc hop hi).trans ht, hfault.trans hf, pc_toNat_of_exec hpc hsafe ht⟩

/-! ## The result of a Step -/

/-- A Step from a state with no record leaves none exactly when it is safe (R64). -/
theorem stepsSafely_iff (hstep : step s = .next t) : StepsSafely s ↔ s.fault = none ∧ t.fault = none := by
  constructor
  · rintro ⟨hf, hpc, op, i, hop, hi, hsafe⟩
    obtain ⟨u, hu, e⟩ := exec_cases i s.advancePc
    rw [step_eq_exec hf hpc hop hi, hu] at hstep
    cases hstep
    exact ⟨hf, (e.fault_eq_of_safe ((executesSafely_advancePc i s).mpr hsafe)).trans hf⟩
  · rintro ⟨hf, ht⟩
    rcases step_cases s with ⟨hhalted, hs⟩ | ⟨-, -, hs⟩ | ⟨-, hpc, op, hop, ⟨_, -, hs⟩ | ⟨i, hi, hs⟩⟩ <;>
      rw [hstep] at hs
    · exact absurd hf hhalted
    · cases hs
      cases ht
    · cases hs
      cases ht
    · exact ⟨hf, hpc, op, i, hop, hi, (executesSafely_advancePc i s).mp (executesSafely_of_exec hs.symm ht)⟩

theorem stepResult_of_fault (hf : s.fault ≠ none) : stepResult s t = .stepRefused := by
  simp [stepResult, s.halted_eq_true_iff.mpr hf]

theorem stepResult_of_latched (hf : s.fault = none) (ht : t.fault ≠ none) : stepResult s t = .stepFault := by
  simp [stepResult, s.halted_eq_false_iff.mpr hf, t.halted_eq_true_iff.mpr ht]

theorem stepResult_of_completed (hf : s.fault = none) (ht : t.fault = none) : stepResult s t = .stepOk := by
  simp [stepResult, s.halted_eq_false_iff.mpr hf, t.halted_eq_false_iff.mpr ht]

/-- Settles O35: `step` is held, and `perform` reports it. -/
theorem haltedStepIsRefused : Obligations.HaltedStepIsRefused := by
  intro s hf
  have hstep := step_of_fault hf
  exact ⟨hstep, by rw [perform_step_of_next hstep, stepResult_of_fault hf]⟩

/-- Settles O36: by whether a record was latched before the Step, and whether one is after it. -/
theorem stepResultIsExact : Obligations.StepResultIsExact := by
  intro s
  obtain ⟨t, hstep, -⟩ := step_sameUnwritten s
  refine ⟨_, perform_step_of_next hstep, rfl, ?_⟩
  rw [stepsSafely_iff hstep]
  by_cases hf : s.fault = none
  · by_cases ht : t.fault = none
    · simp [stepResult_of_completed hf ht, hf, ht]
    · simp [stepResult_of_latched hf ht, hf, ht]
  · simp [stepResult_of_fault hf, hf]

/-- Settles O37: the frame of the Step and of the commands names the state each answers. -/
theorem everyCommandCompletes : Obligations.EveryCommandCompletes := by
  obtain ⟨-, hperform⟩ := operationsWriteOnlyWhatTheyName
  refine ⟨fun s => ?_, fun c s => ?_⟩
  · obtain ⟨t, hstep, -⟩ := step_sameUnwritten s
    exact ⟨t, hstep⟩
  · obtain ⟨r, hr, -⟩ := hperform c s
    exact ⟨r, hr⟩

/-- Settles O38: the jump writes back the `pc` that the advance left behind. -/
theorem idleLoopChangesNothing : Obligations.IdleLoopChangesNothing := by
  rintro s ⟨hf, hpc, nnn, hop, htarget⟩
  rw [step_eq_exec hf hpc hop (decode_encode _), exec_jmp, htarget]
  rfl

end Sys2Proof.Machine
end

section
/-! What a Step does not see (R16, R19, R21, R36): replacing what no instruction writes, before the Step, is replacing it
after the Step, as long as Fetch reads the same opcode. -/

namespace Sys2Proof.Machine

variable {s t : State} {i : Instr}

/-- `s` with what no instruction writes, memory, `I`, the keys and the timers, as `u` has it. -/
def State.withUnwritten (s u : State) : State := { s with mem := u.mem, i := u.i, keys := u.keys, dt := u.dt, st := u.st }

theorem skipIf_withUnwritten (c : Bool) (s u : State) : skipIf c (s.withUnwritten u) = (skipIf c s).withUnwritten u := by
  cases c <;> rfl

/-- An instruction reads nothing of what no instruction writes. -/
theorem exec_withUnwritten (u : State) (h : exec i s = .next t) :
    exec i (s.withUnwritten u) = .next (t.withUnwritten u) := by
  cases i with
  | nop | cls | jmp | loadImm | addImm | copy | orReg | andReg | xorReg =>
    cases h
    rfl
  | ret =>
    by_cases hsp : s.sp.val = 0
    · rw [exec_ret_of_empty hsp] at h
      cases h
      exact exec_ret_of_empty (s := s.withUnwritten u) hsp
    · have hheld := Nat.pos_of_ne_zero hsp
      rw [exec_ret_of_pop (pop_of_held hheld)] at h
      cases h
      exact exec_ret_of_pop (pop_of_held (s := s.withUnwritten u) hheld)
  | call nnn =>
    by_cases hsp : s.sp.val < 16
    · rw [exec, execCall_of_free nnn s hsp] at h
      cases h
      exact execCall_of_free nnn (s.withUnwritten u) hsp
    · have hfull : s.sp.val = 16 := by omega
      rw [exec_call_of_full nnn hfull] at h
      cases h
      exact exec_call_of_full (s := s.withUnwritten u) nnn hfull
  | skipEqImm | skipNeqImm | skipEqReg =>
    cases h
    exact congrArg _ (skipIf_withUnwritten _ s u)

theorem step_withUnwritten (u : State) (hfetch : fetchOpcode (s.withUnwritten u) = fetchOpcode s)
    (h : step s = .next t) : step (s.withUnwritten u) = .next (t.withUnwritten u) := by
  rcases step_cases s with ⟨hf, hs⟩ | ⟨hf, hpc, hs⟩ | ⟨hf, hpc, op, hop, ⟨e, he, hs⟩ | ⟨i, hi, hs⟩⟩ <;>
    rw [h] at hs
  · cases hs
    exact step_of_fault (s := s.withUnwritten u) hf
  · cases hs
    exact step_of_outOfBounds (s := s.withUnwritten u) hf hpc
  · cases hs
    exact step_of_decode_error (s := s.withUnwritten u) hf hpc (hfetch.trans hop) he
  · rw [step_eq_exec (s := s.withUnwritten u) hf hpc (hfetch.trans hop) hi]
    exact exec_withUnwritten u hs.symm

theorem sameUnwritten_of_step (h : step s = .next t) : SameUnwritten s t := by
  obtain ⟨u, hu, hsame⟩ := step_sameUnwritten s
  rw [h] at hu
  cases hu
  exact hsame

/-- Settles O39: with memory as it was, the Fetch reads the same opcode. -/
theorem stepIgnoresKeysIndexAndTimers : Obligations.StepIgnoresKeysIndexAndTimers := by
  intro s ks j d e t h
  have hmem : t.mem = s.mem := (sameUnwritten_of_step h).mem
  have ht : t.withUnwritten { s with keys := ks, i := j, dt := d, st := e } =
      { t with keys := ks, i := j, dt := d, st := e } := by
    simp only [State.withUnwritten, hmem]
  exact ht ▸ step_withUnwritten { s with keys := ks, i := j, dt := d, st := e } rfl h

/-- Settles O40: with the two bytes at `pc` as they were, the Fetch reads the same opcode. -/
theorem stepSeesOnlyItsTwoBytes : Obligations.StepSeesOnlyItsTwoBytes := by
  intro s m t hlower hhigher h
  obtain ⟨-, hi, hkeys, hdt, hst⟩ := sameUnwritten_of_step h
  have ht : t.withUnwritten { s with mem := m } = { t with mem := m } := by
    simp only [State.withUnwritten, ← hi, ← hkeys, ← hdt, ← hst]
  exact ht ▸ step_withUnwritten { s with mem := m } (fetchOpcode_withMem hlower hhigher) h

end Sys2Proof.Machine
end

section
/-! The commands of the host (R90 to R95, R112, R113, R120): RESET, TICK, LOAD and SETKEY, what only some commands can
change, and the outputs (R96). -/

namespace Sys2Proof.Machine

variable {s t : State}

/-! ## RESET (R26, R120) -/

/-- Memory after Reset reads as the reset contents everywhere. -/
theorem readByte_reset {a : Nat} (h : a < 4096) : readByte State.reset a = some (resetByte a) :=
  readByte_eq_some State.reset h

theorem resetByte_of_lt {a : Nat} (h : a < 80) : resetByte a = Config.font[a] := dif_pos h

theorem resetByte_of_le {a : Nat} (h : 80 ≤ a) : resetByte a = 0x00#8 := dif_neg (Nat.not_lt.mpr h)

/-- Settles O41: RESET answers the reset state, whatever the state was. -/
theorem resetLeavesTheResetValues : Obligations.ResetLeavesTheResetValues := by
  refine fun s => ⟨_, rfl, rfl, fun a ha => ?_, fun a hlow hhigh => ?_, State.Inv.reset.screenClear, fun x => ?_, rfl,
    fun k hk => ?_, rfl, fun k hk => ?_, rfl, rfl, rfl⟩
  · rw [readByte_reset (by omega), resetByte_of_lt ha]
  · rw [readByte_reset (by omega), resetByte_of_le hlow]
  · simp [State.reg, State.reset]
  · simp [State.reset]
  · simp [State.reset]

/-! ## TICK (R112, R113) -/

theorem timerTick_of_no_fault (hf : s.fault = none) :
    timerTick s = { s with dt := countDown s.dt, st := countDown s.st } := by
  simp [timerTick, s.halted_eq_false_iff.mpr hf]

theorem tickCue_iff_of_no_fault (hf : s.fault = none) : tickCue s = true ↔ s.st.toNat = 1 := by
  simp [tickCue, s.halted_eq_false_iff.mpr hf, ← BitVec.toNat_inj]

theorem tickCue_of_fault (hf : s.fault ≠ none) : tickCue s = false := by
  simp [tickCue, s.halted_eq_true_iff.mpr hf]

/-- Settles O42: not held, both timers count down; held, the state stays. -/
theorem tickCountsDownAndCues : Obligations.TickCountsDownAndCues := by
  refine fun s => ⟨_, rfl, fun hf => ?_, fun hf => ?_, ?_⟩
  · rw [timerTick_of_no_fault hf]
    exact ⟨countDown_toNat s.dt, countDown_toNat s.st, tickCue_iff_of_no_fault hf⟩
  · rw [timerTick_of_fault hf]
    exact ⟨rfl, rfl, tickCue_of_fault hf⟩
  · rw [timerTick_eq_update]
    exact ⟨rfl, rfl, rfl, rfl, fun _ => rfl, fun _ => rfl, ⟨rfl, rfl⟩, rfl⟩

/-- Settles O43: by induction on the number of TICKs, each counting both timers down by one. -/
theorem timersReachZeroAndStay : Obligations.TimersReachZeroAndStay := by
  intro n
  induction n with
  | zero => exact fun s _ => ⟨s, rfl, rfl, rfl⟩
  | succ n ih =>
    intro s hf
    obtain ⟨t, ht, hdt, hst⟩ := ih { s with dt := countDown s.dt, st := countDown s.st } hf
    refine ⟨t, ?_, ?_, ?_⟩
    · rw [List.replicate_succ, performAll, perform, timerTick_of_no_fault hf]
      exact ht
    · rw [hdt, countDown_toNat]
      omega
    · rw [hst, countDown_toNat]
      omega

/-! ## LOAD and SETKEY (R92, R93) -/

theorem readByte_memStore_same (hwf : Memory.wf s.mem) {a : Nat} (x : Byte) (ha : a < 4096) :
    readByte { s with mem := memStore s.mem a x } a = some x := by
  rw [readByte_eq_some _ ha, memLookup_memStore_same _ _ _ hwf.1]

theorem perform_load_of_le {addr : Addr12} (data : Byte) (h : 0x200 ≤ addr.toNat) :
    perform (.load addr data) s = .next ⟨{ s with mem := memStore s.mem addr.toNat data }, .stepOk, false⟩ := by
  rcases loadByte_cases s addr data with ⟨hlow, -⟩ | ⟨-, hl⟩
  · omega
  · exact perform_load_of_some hl

theorem perform_load_of_lt {addr : Addr12} (data : Byte) (h : addr.toNat < 0x200) :
    perform (.load addr data) s = .next ⟨s, .stepOk, false⟩ := by
  rcases loadByte_cases s addr data with ⟨-, hl⟩ | ⟨hhigh, -⟩
  · exact perform_load_of_some hl
  · omega

/-- Settles O44: by the side of the gate that the address lies on. -/
theorem loadWritesOneByte : Obligations.LoadWritesOneByte := by
  intro s addr data hwf
  by_cases hgate : 0x200 ≤ addr.toNat
  · exact ⟨_, perform_load_of_le data hgate, fun _ => readByte_memStore_same hwf data addr.isLt,
      fun hlow => absurd hlow (Nat.not_lt.mpr hgate), fun a ha => readByte_memStore_other s data ha, rfl⟩
  · exact ⟨_, perform_load_of_lt data (Nat.lt_of_not_le hgate), fun hhigh => absurd hhigh hgate, fun _ => rfl,
      fun _ _ => rfl, rfl⟩

/-- Settles O45: the flag named is the one set. -/
theorem setKeyWritesOneFlag : Obligations.SetKeyWritesOneFlag := by
  refine fun s k b => ⟨_, rfl, fun j hj => ?_, rfl⟩
  rw [State.setKeyFlag_keys, Vector.getElem_set]
  simp only [eq_comm]

theorem lowerAddressByte_joinBytes (lower higher : Byte) : lowerAddressByte (joinBytes lower higher) = lower := by
  apply BitVec.eq_of_toNat_eq
  rw [lowerAddressByte, BitVec.extractLsb'_toNat, joinBytes_toNat, Nat.shiftRight_eq_div_pow]
  omega

theorem higherAddressByte_joinBytes (lower higher : Byte) : higherAddressByte (joinBytes lower higher) = higher :=
  fieldNN_joinBytes lower higher

/-- Not halted and in bounds, placing an opcode writes memory only. -/
theorem placeOpcode_eq_of_inBounds (op : Opcode) (hf : s.fault = none) (hpc : s.pc.toNat ≤ 4094) :
    placeOpcode s op = { s with
      mem := memStore (memStore s.mem s.pc.toNat (lowerAddressByte op)) (s.pc.toNat + 1) (higherAddressByte op) } := by
  have hfits : s.pc.toNat + 1 < Config.memSize := Nat.lt_of_le_of_lt (Nat.succ_le_succ hpc) (by decide)
  simp only [placeOpcode, if_pos hfits, hf]

/-- LOADs of two bytes at `pc` and `pc + 1` place their opcode where the next STEP fetches it (R92, R33). -/
theorem performAll_load_load (lower higher : Byte) (hf : s.fault = none) (hlow : 0x200 ≤ s.pc.toNat)
    (hhigh : s.pc.toNat ≤ 4094) :
    performAll [.load (BitVec.ofNat 12 s.pc.toNat) lower, .load (BitVec.ofNat 12 (s.pc.toNat + 1)) higher] s =
      .next (placeOpcode s (joinBytes lower higher)) := by
  have hfirst : (BitVec.ofNat 12 s.pc.toNat).toNat = s.pc.toNat := by
    rw [BitVec.toNat_ofNat]
    omega
  have hsecond : (BitVec.ofNat 12 (s.pc.toNat + 1)).toNat = s.pc.toNat + 1 := by
    rw [BitVec.toNat_ofNat]
    omega
  rw [performAll, perform_load_of_le lower (by omega), placeOpcode_eq_of_inBounds _ hf hhigh,
    lowerAddressByte_joinBytes, higherAddressByte_joinBytes]
  dsimp only
  rw [performAll, perform_load_of_le higher (by omega), hfirst, hsecond]
  rfl

/-- Settles O46: the LOADs place the opcode, and the next Step fetches an opcode so placed. -/
theorem loadedWordIsFetchedNext : Obligations.LoadedWordIsFetchedNext := by
  intro s lower higher i hwf hf hlow hhigh hi
  obtain ⟨hfault, hpc, hop⟩ := fetchOpcode_placeOpcode s (joinBytes lower higher) hwf
  refine ⟨_, performAll_load_load lower higher hf hlow hhigh, ?_, step_eq_exec hfault hpc hop hi⟩
  rw [placeOpcode_eq_of_inBounds _ hf hhigh]

/-! ## What only some commands can change -/

/-- Settles O47: only RESET and LOAD write memory, and LOAD does not below 0x200. -/
theorem lowMemoryChangesOnlyByReset : Obligations.LowMemoryChangesOnlyByReset := by
  intro c s r a hc h ha
  rcases perform_cases h with hr | ⟨hreset, -⟩ | ⟨-, hstep⟩ | ⟨-, hr⟩ | ⟨addr, d, -, hgate, hr⟩ | ⟨k, b, -, hr⟩
  · rw [hr]
  · exact absurd hreset hc
  · exact (sameUnwritten_of_step hstep).sameMemory a
  · rw [hr, timerTick_eq_update]
    rfl
  · rw [hr]
    exact readByte_memStore_other s d (by omega)
  · rw [hr]
    rfl

/-- A Step that leaves another screen fetched the opcode of CLS (R71). -/
theorem fetchOpcode_of_screen_ne (hstep : step s = .next t) (hscreen : t.screen ≠ s.screen) :
    fetchOpcode s = some 0x00E0#16 := by
  rcases step_cases s with ⟨-, hs⟩ | ⟨-, -, hs⟩ | ⟨-, -, op, hop, ⟨_, -, hs⟩ | ⟨i, hi, hs⟩⟩ <;> rw [hstep] at hs
  · cases hs
    exact absurd rfl hscreen
  · cases hs
    exact absurd rfl hscreen
  · cases hs
    exact absurd rfl hscreen
  · obtain ⟨u, hu, e⟩ := exec_cases i s.advancePc
    rw [hu] at hs
    cases hs
    have hcls : i = .cls := by
      by_contra hne
      exact hscreen (e.sameScreen hne)
    rw [hop, ← encode_of_decode hi, hcls]
    rfl

/-- Settles O48: of the commands only RESET and STEP write the screen, and a STEP only where it fetches CLS. -/
theorem screenChangesOnlyByClsOrReset : Obligations.ScreenChangesOnlyByClsOrReset := by
  intro c s r h hscreen
  rcases perform_cases h with hr | ⟨hreset, -⟩ | ⟨hc, hstep⟩ | ⟨-, hr⟩ | ⟨a, d, -, -, hr⟩ | ⟨k, b, -, hr⟩
  · exact absurd (by rw [hr]) hscreen
  · exact .inl hreset
  · exact .inr ⟨hc, fetchOpcode_of_screen_ne hstep hscreen⟩
  · exact absurd (by rw [hr, timerTick_eq_update]) hscreen
  · exact absurd (by rw [hr]) hscreen
  · exact absurd (by rw [hr, State.setKeyFlag_screen]) hscreen

/-! ## The outputs (R96, R101) -/

theorem soundActive_iff (s : State) : soundActive s = true ↔ 0 < s.st.toNat := by
  simp [soundActive, ← BitVec.toNat_inj, Nat.pos_iff_ne_zero]

/-- The cause codes of R101 tell the causes apart, and each is from 1 to 4. -/
theorem code_spec (c : FaultCause) :
    c.code ≠ 0#3 ∧ c.code.toNat ≤ 4 ∧ (c.code = 1#3 ↔ c.classOf = .unhandledInstructionFault) ∧
    (c.code = 1#3 ↔ c = .unhandledInstruction) ∧ (c.code = 2#3 ↔ c = .fetchBounds) ∧
    (c.code = 3#3 ↔ c = .stackOverflow) ∧ (c.code = 4#3 ↔ c = .stackUnderflow) := by
  cases c <;> decide

/-- Settles O49: by whether a record is latched. -/
theorem outputsReportTheState : Obligations.OutputsReportTheState := by
  intro r
  cases hf : r.state.fault with
  | none => simp [outputs, hf, soundActive_iff]
  | some f =>
    obtain ⟨hne, hle, hcodes⟩ := code_spec f.cause
    simpa [outputs, hf, hne, hle, soundActive_iff] using hcodes

end Sys2Proof.Machine
end
